-- ==== Sys2Proof/Word.lean ====
section
/-! DEFINITION. The cell type: a signed two's-complement integer of 32 bits (00_scope.md R4). -/

namespace Sys2Proof

/-- One memory cell, operand value or arithmetic result: `int32`, read as a signed integer by `BitVec.toInt`
(00_scope.md R4, `CELL_BITS = 32`). -/
abbrev Word := BitVec 32

/-- The smallest `int32`, `-2^31` (00_scope.md R4). -/
def minCell : Int := -2147483648

/-- The largest `int32`, `2^31 - 1` (00_scope.md R4). -/
def maxCell : Int := 2147483647

end Sys2Proof
end

