-- ==== Sys2Proof/Syntax.lean ====
section
/-! DEFINITION. The instruction set: one constructor per row of spec/opcode_table.json, each carrying its list of
`width - 1` addressing modes (30_encoding.md R54, R64). Operand values are no part of the decoded instruction: they
are whole memory cells, read while the instruction executes (10_state.md R28, 40_execute_cycle.md R69). -/

namespace Sys2Proof

/-- An addressing mode (30_encoding.md R51). -/
inductive Mode where
  /-- Mode digit 0: the operand's own value is an address. -/
  | position
  /-- Mode digit 1: the operand is its own literal value. -/
  | immediate
  deriving DecidableEq, Repr

/-- A decoded instruction. `a`, `b`, `c` are the modes of operands 1, 2, 3 (30_encoding.md R48, R50). -/
inductive Instr where
  /-- ADD, opcode 1: source, source, destination. -/
  | add (a b c : Mode)
  /-- MUL, opcode 2: source, source, destination. -/
  | mul (a b c : Mode)
  /-- IN, opcode 3: destination. -/
  | inp (a : Mode)
  /-- OUT, opcode 4: source. -/
  | out (a : Mode)
  /-- HLT, opcode 99. -/
  | hlt
  deriving DecidableEq, Repr

/-- Why a word does not decode (30_encoding.md R54, R58). -/
inductive DecodeFault where
  /-- The opcode value `w rem 100` is not in `{1, 2, 3, 4, 99}`. -/
  | unknownOpcode (code : Int)
  /-- A mode digit the decoder reads is outside `{0, 1}`. -/
  | unknownMode (digit : Nat)
  /-- The mode digit of destination operand `k` is 1. -/
  | immediateDestination (k : Nat)
  deriving DecidableEq, Repr

end Sys2Proof
end

