-- ==== Sys2Proof/WellFormed.lean ====
section
/-! DEFINITION. Which instructions the encoding can hold: a destination operand is Position
(30_encoding.md R52; its mode digit 1 is rejected). -/

namespace Sys2Proof

/-- A mode a destination operand may carry (30_encoding.md R52). -/
def Mode.isDestination : Mode → Bool
  | .position => true
  | .immediate => false

/-- The instruction is one that some word decodes to: its destination, where it has one, is in Position mode. -/
def Instr.wf : Instr → Bool
  | .add _ _ c => c.isDestination
  | .mul _ _ c => c.isDestination
  | .inp a => a.isDestination
  | .out _ => true
  | .hlt => true

end Sys2Proof
end

