-- ==== Sys2Proof/Decode.lean ====
section
/-! DEFINITION. Decoding an instruction word from its decimal digits (30_encoding.md R45 to R60), and the encoder
that gives a well-formed instruction's canonical word (R50). Decoding is total: a word is an instruction or a named
decode fault. -/

namespace Sys2Proof

/-- Decimal digit `k` of `w`, digit 0 the units (00_scope.md R9). -/
def digit (w k : Nat) : Nat := w / 10 ^ k % 10

/-- The opcode value `w rem 100`, the truncated remainder, whose sign is the sign of `w` (30_encoding.md R47; for a
negative word this is the spec's decision D3). -/
def opcodeValue (w : Word) : Int := w.toInt.tmod 100

/-- The mode a digit names; any digit but 0 and 1 is `UnknownMode` (30_encoding.md R51). -/
def decodeMode (d : Nat) : Except DecodeFault Mode :=
  if d = 0 then .ok .position
  else if d = 1 then .ok .immediate
  else .error (.unknownMode d)

/-- The mode of source operand `k`: digit `k + 1` (30_encoding.md R46). -/
def decodeSource (w k : Nat) : Except DecodeFault Mode := decodeMode (digit w (k + 1))

/-- The mode of destination operand `k`: decoded like any other, and digit 1 is `ImmediateDestination`
(30_encoding.md R52; the fault's name is the spec's decision D5). -/
def decodeDestination (w k : Nat) : Except DecodeFault Mode :=
  match decodeMode (digit w (k + 1)) with
  | .error f => .error f
  | .ok .immediate => .error (.immediateDestination k)
  | .ok .position => .ok .position

/-- The modes of format F4 (30_encoding.md R50), in operand order (R55). -/
def decodeF4 (build : Mode → Mode → Mode → Instr) (w : Nat) : Except DecodeFault Instr :=
  match decodeSource w 1 with
  | .error f => .error f
  | .ok a =>
    match decodeSource w 2 with
    | .error f => .error f
    | .ok b =>
      match decodeDestination w 3 with
      | .error f => .error f
      | .ok c => .ok (build a b c)

/-- The one mode of format F2 (30_encoding.md R50). -/
def decodeF2 (build : Mode → Instr) (mode : Except DecodeFault Mode) : Except DecodeFault Instr :=
  match mode with
  | .error f => .error f
  | .ok a => .ok (build a)

/-- `decode(w)` (30_encoding.md R54): the opcode first, then the mode digits in operand order (R55). Digits above
those read are ignored (R46, R59; the spec's decision D4). -/
def decode (w : Word) : Except DecodeFault Instr :=
  if opcodeValue w = 1 then decodeF4 .add w.toInt.toNat
  else if opcodeValue w = 2 then decodeF4 .mul w.toInt.toNat
  else if opcodeValue w = 3 then decodeF2 .inp (decodeDestination w.toInt.toNat 1)
  else if opcodeValue w = 4 then decodeF2 .out (decodeSource w.toInt.toNat 1)
  else if opcodeValue w = 99 then .ok .hlt
  else .error (.unknownOpcode (opcodeValue w))

/-- The opcode of an instruction (30_encoding.md R48). -/
def Instr.opcode : Instr → Nat
  | .add _ _ _ => 1
  | .mul _ _ _ => 2
  | .inp _ => 3
  | .out _ => 4
  | .hlt => 99

/-- The number of cells an instruction occupies, a function of the opcode alone (30_encoding.md R49). -/
def Instr.width : Instr → Nat
  | .add _ _ _ => 4
  | .mul _ _ _ => 4
  | .inp _ => 2
  | .out _ => 2
  | .hlt => 1

/-- The destination operand's index, where there is one (30_encoding.md R49). -/
def Instr.dest : Instr → Option Nat
  | .add _ _ _ => some 3
  | .mul _ _ _ => some 3
  | .inp _ => some 1
  | .out _ => none
  | .hlt => none

/-- The mode list, operand 1 first (30_encoding.md R54, R64). -/
def Instr.modes : Instr → List Mode
  | .add a b c => [a, b, c]
  | .mul a b c => [a, b, c]
  | .inp a => [a]
  | .out a => [a]
  | .hlt => []

/-- The digit that names a mode (30_encoding.md R51). -/
def Mode.digit : Mode → Nat
  | .position => 0
  | .immediate => 1

/-- The mode digits of a mode list as a number: operand 1 is the units (30_encoding.md R46). -/
def modeDigits : List Mode → Nat
  | [] => 0
  | m :: ms => m.digit + 10 * modeDigits ms

/-- The canonical word of an instruction: `opcode + 100*A + 1000*B + 10000*C` (30_encoding.md R50). -/
def encode (i : Instr) : Word := BitVec.ofNat 32 (i.opcode + 100 * modeDigits i.modes)

/-- The cells of an instruction with its raw operand values: the word, then the operand cells
(30_encoding.md R45, R62). -/
def assemble (i : Instr) (operands : List Word) : List Word := encode i :: operands

/-- How many whole cells `nbits` bits take: at least the instruction word (20_memory.md R31: every access is of a
whole cell). -/
def tableCellCount (nbits : Nat) : Nat := max 1 ((nbits + 31) / 32)

/-- Cell `k` of an instruction whose bits are `w`: 32 bits a cell, the first cell in the lowest bits, and every bit
above the given length 0. DESIGN CHOICE (log entry 16): the spec numbers no bits across cells. -/
def tableCell (nbits w k : Nat) : Word :=
  if k < tableCellCount nbits then BitVec.ofNat 32 (w / 2 ^ (32 * k)) else 0#32

/-- The cells of an instruction whose bits are `w`, up to the longest instruction, 4 cells (30_encoding.md R49). -/
def tableCells (nbits w : Nat) : List Word :=
  [tableCell nbits w 0, tableCell nbits w 1, tableCell nbits w 2, tableCell nbits w 3]

/-- The instruction the decoder reads from an instruction whose bits are `w`: decode reads the first cell only
(30_encoding.md R54, R56). -/
def decodeTableWord (nbits w : Nat) : Option Instr :=
  match decode (tableCell nbits w 0) with
  | .ok i => some i
  | .error _ => none

end Sys2Proof
end

