-- ==== Sys2Proof/Config.lean ====
section
/-! DEFINITION. The named parameters of an instance that no step changes (00_scope.md R6). The memory length N
(R5) is a parameter too: it stands with the memory, in `Machine.Memory.len`. No value of this machine is left
open by the spec, so there is no free value. -/

namespace Sys2Proof

/-- `ARITH_OVERFLOW`: what Add and Multiply do when the exact result lies outside `int32`
(00_scope.md R6, 41_arithmetic.md R82). -/
inductive ArithOverflow where
  /-- The step raises `ArithmeticOverflow`. The spec's default. -/
  | fault
  /-- The low 32 bits of the result are written. -/
  | wrap
  deriving DecidableEq, Repr

/-- The parameters of one instance. -/
structure Config where
  arithOverflow : ArithOverflow
  deriving DecidableEq, Repr

/-- The spec's default: `ARITH_OVERFLOW = fault` (00_scope.md R6). -/
def Config.standard : Config := { arithOverflow := .fault }

end Sys2Proof
end

