-- ==== Sys2Proof/Machine/State.lean ====
section
/-! DEFINITION. The state of one instance: the tuple `(MEM, IP, RUN, FAULT, STARTED, OUT)` and the read position of
the input source (10_state.md R13 to R24), with the instance's parameters (00_scope.md R5, R6, R8). Plain data. -/

namespace Sys2Proof.Machine

/-- Why the input source gave no value (60_exceptions.md R96). -/
inductive InputFailure where
  /-- The source produced no value. -/
  | exhausted
  /-- The source produced an unparseable or out-of-range value. -/
  | malformed
  deriving DecidableEq, Repr

/-- The architected faults (60_exceptions.md R92). Each is RECORDED in `State.fault` by a next state, as R100 says;
no step answers `Host.Outcome.fault`, so no reason here ever stops the model (log entry 1). -/
inductive Fault where
  /-- Raised at decode by a word whose `w rem 100` is no opcode (R93). Safe: the model ends the run there. -/
  | unknownOpcode (code : Int)
  /-- Raised at decode by a mode digit outside `{0, 1}` (R94). Safe: the model ends the run there. -/
  | unknownMode (digit : Nat)
  /-- Raised by a fetch, a Position read or a destination outside `[0, N)` (R95). Safe: no access is made. -/
  | outOfBounds (address : Int)
  /-- Raised by IN when its pull is answered `Exhausted` or `Malformed` (R96). Safe: the run ends there. -/
  | inputFault (reason : InputFailure)
  /-- Raised at decode by a destination with mode digit 1 (R97; by exec for an ill-formed term, log entry 8).
  Safe: the spec's decision D5 stops where the hardware may go on. -/
  | immediateDestination (k : Nat)
  /-- Raised by ADD (1) and MUL (2) when the exact result is outside `int32` and `ARITH_OVERFLOW = fault` (R98).
  Safe: the spec's decision D2 stops where the hardware may go on. -/
  | arithmeticOverflow (op : Nat)
  deriving DecidableEq, Repr

/-- The reasons an instruction could have no meaning. -/
inductive Refusal where
  /-- Raised by `exec` for an instruction not yet modelled: no arm does. Safe. -/
  | notModelled (mnemonic : String)
  deriving DecidableEq, Repr

/-- `RUN` (10_state.md R19). -/
inductive RunState where
  | running
  | halted
  | faulted
  deriving DecidableEq, Repr

/-- One answer of the input source to one pull (00_scope.md R8, 42_io.md R87). -/
inductive InputAnswer where
  | value (v : Word)
  | exhausted
  | malformed
  deriving DecidableEq, Repr

/-- The input source: the answers it gives, one per pull, in order (00_scope.md R8). An interactive source may still
answer after the last listed answer, and a pull waits for it (42_io.md R86); a queue answers `Exhausted` from there on
(60_exceptions.md R109). -/
structure InputSource where
  answers : List InputAnswer
  interactive : Bool
  deriving DecidableEq, Repr

/-- `MEM`: `len` cells at addresses `0` to `len - 1` (10_state.md R14), held as the list of the cells that differ from
`Memory.unlisted`, by rising address (log entry 2). -/
structure Memory where
  /-- `MEM_LEN`, the number of cells `N` (00_scope.md R5). -/
  len : Nat
  cells : List (Nat × Word)
  deriving DecidableEq, Repr

/-- The architectural state of one instance and its parameters. -/
structure State where
  /-- The parameters no step changes (00_scope.md R6). -/
  config : Config
  /-- `MEM` and `N` (10_state.md R14, R15). -/
  mem : Memory
  /-- `IP` (10_state.md R16 to R18). -/
  ip : Nat
  /-- `RUN` (10_state.md R19). -/
  run : RunState
  /-- `FAULT`; `none` is kind `None`, code 0 (10_state.md R20). -/
  fault : Option Fault
  /-- `STARTED` (10_state.md R21). -/
  started : Bool
  /-- `OUT`, oldest first (10_state.md R23). -/
  out : List Word
  /-- The run's input source (00_scope.md R8). -/
  input : InputSource
  /-- How many answers have been pulled (10_state.md R24). -/
  pulled : Nat
  /-- A step has begun and stands at its input pull: "the step is in progress" (10_state.md R22, 42_io.md R86). Hidden
  state of the step, not an architected flag: no instruction and no host read gives it (log entry 18). -/
  inStep : Bool
  deriving DecidableEq, Repr

/-- The machine right after reset: construction (70_reset_and_hazards.md R115) from the empty program, which R5
admits, with the default parameters of R6 and 95_test_vectors.md: `ARITH_OVERFLOW = fault` and an input queue with no
answers. A program is loaded from outside: `construct` or `State.withFetchWord` (log entries 3, 4, 6). -/
def State.reset : State where
  config := Config.standard
  mem := { len := 0, cells := [] }
  ip := 0
  run := .running
  fault := none
  started := false
  out := []
  input := { answers := [], interactive := false }
  pulled := 0
  inStep := false

end Sys2Proof.Machine
end

