-- ==== Sys2Proof/Machine/Ops.lean ====
section
/-! DEFINITION. The named operations every instruction shares: memory reads and writes with their bounds check,
the instruction pointer, the input pull, the output push, taking a fault, and the fetch. -/

namespace Sys2Proof.Machine

/-! ### Memory (20_memory.md) -/

/-- What a cell that is not listed holds. This is how memory is written down, not what the hardware leaves open:
every cell has a value from construction on, and a cell is unlisted exactly when that value is 0 (log entry 2). -/
def Memory.unlisted : Word := 0#32

/-- The value of the first entry for `a`, or `Memory.unlisted`. -/
def cellAt : List (Nat × Word) → Nat → Word
  | [], _ => Memory.unlisted
  | (b, v) :: rest, a => if b = a then v else cellAt rest a

/-- `MemRead(a, 1)` (00_scope.md R10); meant for `a < N`. -/
def Memory.get (m : Memory) (a : Nat) : Word := cellAt m.cells a

/-- The list without the entries for `a`. -/
def eraseCell (a : Nat) : List (Nat × Word) → List (Nat × Word)
  | [] => []
  | (b, w) :: rest => if b = a then eraseCell a rest else (b, w) :: eraseCell a rest

/-- The list with `(a, v)` before the first entry of a larger address. -/
def insertCell (a : Nat) (v : Word) : List (Nat × Word) → List (Nat × Word)
  | [] => [(a, v)]
  | (b, w) :: rest => if a < b then (a, v) :: (b, w) :: rest else (b, w) :: insertCell a v rest

/-- `MemWrite(a, 1, v)` (00_scope.md R10); meant for `a < N`. Keeps the canonical form: writing `Memory.unlisted`
removes the entry. The length never changes (10_state.md R15). -/
def Memory.set (m : Memory) (a : Nat) (v : Word) : Memory :=
  { m with
    cells := if v = Memory.unlisted then eraseCell a m.cells else insertCell a v (eraseCell a m.cells) }

/-- Listed addresses rise strictly, all at least `lo` and below `len`, and no listed value is `Memory.unlisted`. -/
def cellsCanonical (len : Nat) : Nat → List (Nat × Word) → Bool
  | _, [] => true
  | lo, (a, v) :: rest => decide (lo ≤ a) && decide (a < len) && decide (v ≠ Memory.unlisted) && cellsCanonical len (a + 1) rest

/-- The canonical form: equal memories are equal data. -/
def Memory.wf (m : Memory) : Bool := cellsCanonical m.len 0 m.cells

/-- `0 <= a < N`, compared as `Int` (00_scope.md R12, 20_memory.md R32). -/
abbrev Memory.InBounds (m : Memory) (a : Int) : Prop := 0 ≤ a ∧ a < m.len

/-- The entries of a program whose first cell has address `i`. -/
def listCells : Nat → List Word → List (Nat × Word)
  | _, [] => []
  | i, v :: vs => if v = Memory.unlisted then listCells (i + 1) vs else (i, v) :: listCells (i + 1) vs

/-- Memory at construction: cell `i` holds element `i` of the program (10_state.md R14). -/
def Memory.ofProgram (program : List Word) : Memory :=
  { len := program.length, cells := listCells 0 program }

/-- Cells stored one after the other from `a` on, the memory made long enough to hold them: a load from outside
the machine, never an effect of a step. -/
def Memory.place (m : Memory) : Nat → List Word → Memory
  | _, [] => m
  | a, v :: vs => Memory.place ({ m with len := max m.len (a + 1) }.set a v) (a + 1) vs

/-! ### State updates -/

/-- A checked read: `check(a)` then `MemRead(a, 1)` (20_memory.md R32). -/
def State.load (s : State) (a : Int) : Except Fault Word :=
  if s.mem.InBounds a then .ok (s.mem.get a.toNat) else .error (.outOfBounds a)

/-- The checked address of a write (20_memory.md R32, 40_execute_cycle.md R73). -/
def State.checkAddress (s : State) (a : Int) : Except Fault Nat :=
  if s.mem.InBounds a then .ok a.toNat else .error (.outOfBounds a)

/-- The one write of a step (40_execute_cycle.md R74), its address checked before. -/
def State.store (s : State) (a : Nat) (v : Word) : State := { s with mem := s.mem.set a v }

/-- `IP <- IP + n` (40_execute_cycle.md R75). -/
def State.advance (s : State) (n : Nat) : State := { s with ip := s.ip + n }

/-- TAKING A FAULT: `RUN <- Faulted`, `FAULT <- (F, x)` and nothing else; control goes nowhere and there is no return
(60_exceptions.md R100, R103). -/
def State.raise (s : State) (f : Fault) : State := { s with run := .faulted, fault := some f }

/-- `RUN <- Halted` (43_halt.md R90). -/
def State.halt (s : State) : State := { s with run := .halted }

/-- `STARTED <- 1` (40_execute_cycle.md R67). A step in progress is taken up here too: it stays in progress only if it
reaches `State.wait` again. -/
def State.start (s : State) : State := { s with started := true, inStep := false }

/-- The step stands at its pull; no architectural state changes (10_state.md R22, 42_io.md R86). -/
def State.wait (s : State) : State := { s with inStep := true }

/-- `OutPush(v)` (00_scope.md R11, 42_io.md R88). The sink accepts every value (R89, the spec's decision D24). -/
def State.emit (s : State) (v : Word) : State := { s with out := s.out ++ [v] }

/-- The answer to pull number `k`: `none` while an interactive source has not answered it (42_io.md R86), `Exhausted`
past the end of a queue (95_test_vectors.md). -/
def InputSource.answerAt (src : InputSource) (k : Nat) : Option InputAnswer :=
  match src.answers[k]? with
  | some a => some a
  | none => if src.interactive then none else some .exhausted

/-- The answer the next pull receives (10_state.md R24). -/
def State.nextAnswer (s : State) : Option InputAnswer := s.input.answerAt s.pulled

/-- One answer has been consumed (10_state.md R24). -/
def State.pullOne (s : State) : State := { s with pulled := s.pulled + 1 }

/-- A decode fault as the fault record's kind (60_exceptions.md R92). -/
def Fault.ofDecode : DecodeFault → Fault
  | .unknownOpcode code => .unknownOpcode code
  | .unknownMode d => .unknownMode d
  | .immediateDestination k => .immediateDestination k

/-- Go on with a value, or take the fault (00_scope.md R11: `raise` ends the step at once). -/
def orRaise {α : Type} (s : State) (r : Except Fault α) (go : α → Host.Outcome State Fault Refusal) :
    Host.Outcome State Fault Refusal :=
  match r with
  | .error f => .next (s.raise f)
  | .ok x => go x

/-- Fetch and decode: the bounds check on `IP`, the word at `IP`, then `decode` (40_execute_cycle.md R66, R68). -/
def State.fetch (s : State) : Except Fault Instr :=
  match s.load s.ip with
  | .error f => .error f
  | .ok w =>
    match decode w with
    | .error d => .error (Fault.ofDecode d)
    | .ok i => .ok i

/-! ### Host-visible encodings -/

/-- The encoding of `RUN` (10_state.md R19, the spec's decision D11). -/
def RunState.code : RunState → Nat
  | .running => 0
  | .halted => 1
  | .faulted => 2

/-- The code of an input failure (60_exceptions.md R92). -/
def InputFailure.code : InputFailure → Nat
  | .exhausted => 0
  | .malformed => 1

/-- The kind code of a fault (60_exceptions.md R92, the spec's decision D10). -/
def Fault.code : Fault → Nat
  | .unknownOpcode _ => 1
  | .unknownMode _ => 2
  | .outOfBounds _ => 3
  | .inputFault _ => 4
  | .immediateDestination _ => 5
  | .arithmeticOverflow _ => 6

/-- The payload of a fault (60_exceptions.md R92). -/
def Fault.payload : Fault → Int
  | .unknownOpcode code => code
  | .unknownMode d => d
  | .outOfBounds a => a
  | .inputFault r => r.code
  | .immediateDestination k => k
  | .arithmeticOverflow op => op

/-- `FAULT` as the pair (kind code, payload); `(None, 0)` is `(0, 0)` (10_state.md R20). -/
def State.faultRecord (s : State) : Nat × Int :=
  match s.fault with
  | none => (0, 0)
  | some f => (f.code, f.payload)

end Sys2Proof.Machine
end

