-- ==== Sys2Proof/Machine/Flags.lean ====
section
/-! DEFINITION. There are no flags (10_state.md R26). What this file holds is the one condition on results the spec
has: whether an exact sum or product fits a cell (41_arithmetic.md R82). -/

namespace Sys2Proof.Machine

/-- `-2^31 <= r <= 2^31 - 1` (00_scope.md R4). -/
abbrev FitsCell (r : Int) : Prop := minCell ≤ r ∧ r ≤ maxCell

/-- `((r + 2^31) mod 2^32) - 2^31` (41_arithmetic.md R82). -/
def wrapCell (r : Int) : Int := (r + 2147483648) % 4294967296 - 2147483648

/-- `fit(op, r)` (41_arithmetic.md R82; the parameter is the spec's decision D2). -/
def fit (policy : ArithOverflow) (op : Nat) (r : Int) : Except Fault Word :=
  if FitsCell r then .ok (BitVec.ofInt 32 r)
  else
    match policy with
    | .fault => .error (.arithmeticOverflow op)
    | .wrap => .ok (BitVec.ofInt 32 (wrapCell r))

end Sys2Proof.Machine
end

