-- ==== Sys2Proof/Machine/Operands.lean ====
section
/-! DEFINITION. Operand forms: the fetch of operand cells and the resolution of sources and destinations
(40_execute_cycle.md R70 to R73). -/

namespace Sys2Proof.Machine

/-- The raw value of operand `k`, from cell `IP + k` (40_execute_cycle.md R71). -/
def State.operandCell (s : State) (k : Nat) : Except Fault Word := s.load (s.ip + k)

/-- A source with raw value `p`: `MEM[p]` in Position mode, `p` itself in Immediate mode (40_execute_cycle.md R72). -/
def State.resolveSource (s : State) (mode : Mode) (p : Word) : Except Fault Word :=
  match mode with
  | .position => s.load p.toInt
  | .immediate => .ok p

/-- Source operand `k`: its cell is fetched, then resolved (40_execute_cycle.md R70). -/
def State.source (s : State) (k : Nat) (mode : Mode) : Except Fault Word :=
  match s.operandCell k with
  | .error f => .error f
  | .ok p => s.resolveSource mode p

/-- Destination operand `k`: its cell is fetched and its value is the address, checked and never dereferenced
(40_execute_cycle.md R73). -/
def State.destination (s : State) (k : Nat) : Except Fault Nat :=
  match s.operandCell k with
  | .error f => .error f
  | .ok p => s.checkAddress p.toInt

/-- Decode rejects a destination in Immediate mode (30_encoding.md R52), so an instruction that was fetched passes
this; a term that no word decodes to raises the same fault before any operand is read. DESIGN CHOICE, log entry 8. -/
def requirePosition (k : Nat) (mode : Mode) : Except Fault Unit :=
  match mode with
  | .position => .ok ()
  | .immediate => .error (.immediateDestination k)

/-- The resolved operands of format F4. -/
structure ArithOperands where
  val1 : Word
  val2 : Word
  addr : Nat
  deriving DecidableEq, Repr

/-- The operands of format F4 in order: source, source, destination (40_execute_cycle.md R69, R70). -/
def State.arithOperands (s : State) (a b c : Mode) : Except Fault ArithOperands :=
  match requirePosition 3 c with
  | .error f => .error f
  | .ok _ =>
    match s.source 1 a with
    | .error f => .error f
    | .ok v1 =>
      match s.source 2 b with
      | .error f => .error f
      | .ok v2 =>
        match s.destination 3 with
        | .error f => .error f
        | .ok d => .ok { val1 := v1, val2 := v2, addr := d }

/-- The operand of IN: its destination (40_execute_cycle.md R69, R73). -/
def State.inputOperand (s : State) (a : Mode) : Except Fault Nat :=
  match requirePosition 1 a with
  | .error f => .error f
  | .ok _ => s.destination 1

end Sys2Proof.Machine
end

