-- ==== Sys2Proof/Machine/Arithmetic.lean ====
section
/-! DEFINITION. ADD and MUL (41_arithmetic.md). -/

namespace Sys2Proof.Machine

/-- What ADD and MUL share ("identical to Add but with multiplication", 41_arithmetic.md R81, R84): resolve the
operands, compute exactly, `fit`, write, advance by 4. -/
def arithmetic (op : Nat) (exact : Int → Int → Int) (a b c : Mode) (s : State) : Host.Outcome State Fault Refusal :=
  orRaise s (s.arithOperands a b c) fun x =>
    orRaise s (fit s.config.arithOverflow op (exact x.val1.toInt x.val2.toInt)) fun r =>
      .next ((s.store x.addr r).advance 4)

/-- ADD (41_arithmetic.md R80). -/
def execAdd (a b c : Mode) (s : State) : Host.Outcome State Fault Refusal :=
  arithmetic 1 (fun x y => x + y) a b c s

/-- MUL (41_arithmetic.md R81). -/
def execMul (a b c : Mode) (s : State) : Host.Outcome State Fault Refusal :=
  arithmetic 2 (fun x y => x * y) a b c s

end Sys2Proof.Machine
end

