-- ==== Sys2Proof/Machine/Halt.lean ====
section
/-! DEFINITION. HLT (43_halt.md). -/

namespace Sys2Proof.Machine

/-- HLT (43_halt.md R90): `RUN <- Halted`; `IP` keeps the address of the HLT word. -/
def execHlt (s : State) : Host.Outcome State Fault Refusal := .next s.halt

end Sys2Proof.Machine
end

