-- ==== Sys2Proof/Machine/InputOutput.lean ====
section
/-! DEFINITION. IN and OUT (42_io.md). -/

namespace Sys2Proof.Machine

/-- The end of IN once its pull is answered (42_io.md R85, R87): a value is stored at `d`, anything else is
`InputFault`; either way one answer is consumed (10_state.md R24, 40_execute_cycle.md R76). -/
def receive (d : Nat) (answer : InputAnswer) (s : State) : State :=
  match answer with
  | .value v => (s.pullOne.store d v).advance 2
  | .exhausted => s.pullOne.raise (.inputFault .exhausted)
  | .malformed => s.pullOne.raise (.inputFault .malformed)

/-- IN (42_io.md R85): the destination is resolved and checked before the pull. While the source has not answered,
the instruction waits and no architectural state changes (R86, 10_state.md R22): the next state is the same state with
the step still in progress, and the following step takes the same IN up again (log entry 5). -/
def execInp (a : Mode) (s : State) : Host.Outcome State Fault Refusal :=
  orRaise s (s.inputOperand a) fun d =>
    match s.nextAnswer with
    | none => .next s.wait
    | some answer => .next (receive d answer s)

/-- OUT (42_io.md R88). -/
def execOut (a : Mode) (s : State) : Host.Outcome State Fault Refusal :=
  orRaise s (s.source 1 a) fun v => .next ((s.emit v).advance 2)

end Sys2Proof.Machine
end

