-- ==== Sys2Proof/Machine/Dispatch.lean ====
section
/-! DEFINITION. One arm per instruction: the `execute` part of a step with its operand resolution
(40_execute_cycle.md R69, R74). -/

namespace Sys2Proof.Machine

def exec (i : Instr) (s : State) : Host.Outcome State Fault Refusal :=
  match i with
  | .add a b c => Sys2Proof.Machine.execAdd a b c s
  | .mul a b c => Sys2Proof.Machine.execMul a b c s
  | .inp a => Sys2Proof.Machine.execInp a s
  | .out a => Sys2Proof.Machine.execOut a s
  | .hlt => Sys2Proof.Machine.execHlt s

end Sys2Proof.Machine
end

