-- ==== Sys2Proof/Machine/Step.lean ====
section
/-! DEFINITION. One step of an instance (40_execute_cycle.md R65 to R69), and the load of an instruction where the
next step fetches. -/

namespace Sys2Proof.Machine

/-- A step: nothing unless `RUN = Running` (R65); else `STARTED <- 1` (R67), fetch and decode (R66, R68), execute. A
waiting IN is taken up again from its fetch, which reads the same cells: nothing has changed since (10_state.md R22). -/
def step (s : State) : Host.Outcome State Fault Refusal :=
  match s.run with
  | .running => orRaise s.start s.start.fetch fun i => exec i s.start
  | .halted => .next s
  | .faulted => .next s

/-- `s` with the cells of an instruction whose bits are `w` stored at `IP`, with `RUN = Running` (and so no fault recorded)
and no step in progress, so that the very next step runs it. The memory is made long enough. It stands for building the
instance from a program that holds this instruction (log entries 3, 16, 22). -/
def State.withFetchWord (s : State) (nbits w : Nat) : State :=
  { s with mem := s.mem.place s.ip (tableCells nbits w), run := .running, fault := none, inStep := false }

end Sys2Proof.Machine
end

