-- ==== Sys2Proof/Machine/Cycle.lean ====
section
/-! DEFINITION. The cycle as the spec writes it: `decode` as a loop over the mode digits (30_encoding.md R54) and the
step as a loop over the operands, with the width and the destination looked up by opcode (40_execute_cycle.md R69).
`step` does not use this file: a statement says that both are the same machine. -/

namespace Sys2Proof.Machine

/-- What the opcode alone fixes (30_encoding.md R48, R49). -/
structure OpcodeRow where
  width : Nat
  dest : Option Nat
  deriving DecidableEq, Repr

/-- The opcode table (30_encoding.md R48). -/
def opcodeRow (code : Int) : Option OpcodeRow :=
  if code = 1 ∨ code = 2 then some { width := 4, dest := some 3 }
  else if code = 3 then some { width := 2, dest := some 1 }
  else if code = 4 then some { width := 2, dest := none }
  else if code = 99 then some { width := 1, dest := none }
  else none

/-- `for k := ..` of R54: the modes of `n` operands from operand `k` on. -/
def decodeModeLoop (w : Nat) (dest : Option Nat) : Nat → Nat → Except DecodeFault (List Mode)
  | 0, _ => .ok []
  | n + 1, k =>
    if digit w (k + 1) ≠ 0 ∧ digit w (k + 1) ≠ 1 then .error (.unknownMode (digit w (k + 1)))
    else if some k = dest ∧ digit w (k + 1) = 1 then .error (.immediateDestination k)
    else
      match decodeModeLoop w dest n (k + 1) with
      | .error f => .error f
      | .ok ms => .ok ((if digit w (k + 1) = 0 then Mode.position else Mode.immediate) :: ms)

/-- `decode(w)` with its loop (30_encoding.md R54): the opcode and the mode list. -/
def decodeLoop (w : Word) : Except DecodeFault (Int × List Mode) :=
  match opcodeRow (w.toInt.tmod 100) with
  | none => .error (.unknownOpcode (w.toInt.tmod 100))
  | some row =>
    match decodeModeLoop w.toInt.toNat row.dest (row.width - 1) 1 with
    | .error f => .error f
    | .ok ms => .ok (w.toInt.tmod 100, ms)

/-- The resolved operands: the source values in operand order, and the destination address. -/
structure Resolved where
  vals : List Word
  addr : Option Nat
  deriving DecidableEq, Repr

/-- `for k := ..` of R69: the operands from operand `k` on. -/
def operandLoop (s : State) (dest : Option Nat) : Nat → List Mode → Except Fault Resolved
  | _, [] => .ok { vals := [], addr := none }
  | k, m :: ms =>
    match s.load (s.ip + k) with
    | .error f => .error f
    | .ok p =>
      if some k = dest then
        if s.mem.InBounds p.toInt then
          match operandLoop s dest (k + 1) ms with
          | .error f => .error f
          | .ok r => .ok { r with addr := some p.toInt.toNat }
        else .error (.outOfBounds p.toInt)
      else
        match (if m = Mode.position then s.load p.toInt else .ok p) with
        | .error f => .error f
        | .ok v =>
          match operandLoop s dest (k + 1) ms with
          | .error f => .error f
          | .ok r => .ok { r with vals := v :: r.vals }

/-- How `execute` of R69 ends: it went through, or the step is over (a fault was raised, or the pull is unanswered). -/
inductive Effect where
  | completed (s : State)
  | ended (s : State)
  deriving DecidableEq, Repr

/-- `r := fit(op, r); MemWrite(addr, 1, r)` (41_arithmetic.md R80, R81, R82). -/
def writeFitted (s : State) (op : Nat) (r : Int) (addr : Nat) : Effect :=
  match fit s.config.arithOverflow op r with
  | .error f => .ended (s.raise f)
  | .ok v => .completed (s.store addr v)

/-- `execute(op, val, addr)` of R69: by opcode (40_execute_cycle.md R74). The last arm is for operand lists that
`operandLoop` never gives. -/
def execute (code : Int) (r : Resolved) (s : State) : Effect :=
  match r.vals, r.addr with
  | [x, y], some d => if code = 1 then writeFitted s 1 (x.toInt + y.toInt) d else writeFitted s 2 (x.toInt * y.toInt) d
  | [], some d =>
    match s.nextAnswer with
    | none => .ended s.wait
    | some (.value v) => .completed (s.pullOne.store d v)
    | some .exhausted => .ended (s.pullOne.raise (.inputFault .exhausted))
    | some .malformed => .ended (s.pullOne.raise (.inputFault .malformed))
  | [x], none => .completed (s.emit x)
  | [], none => .completed s.halt
  | _, _ => .ended s

/-- The body of R69 once `STARTED` is set. -/
def cycleBody (s : State) : State :=
  match s.load s.ip with
  | .error f => s.raise f
  | .ok w =>
    match decodeLoop w with
    | .error d => s.raise (Fault.ofDecode d)
    | .ok (code, modes) =>
      match opcodeRow code with
      | none => s
      | some row =>
        match operandLoop s row.dest 1 modes with
        | .error f => s.raise f
        | .ok r =>
          match execute code r s with
          | .ended t => t
          | .completed t => if code ≠ 99 then t.advance row.width else t

/-- `step()` as R69 writes it. -/
def cycle (s : State) : State := if s.run ≠ .running then s else cycleBody s.start

end Sys2Proof.Machine
end

