-- ==== Sys2Proof/Machine/HostInterface.lean ====
section
/-! DEFINITION. What the host can do to an instance (70_reset_and_hazards.md R115 to R120): construct, poke, peek,
read IP, RUN, FAULT and OUT, step, run to completion, abort, answer a pull; and several instances side by side. -/

namespace Sys2Proof.Machine

/-- Construction from a program (70_reset_and_hazards.md R115), with the run's input source (00_scope.md R8) and the
instance's parameters (R6). -/
def construct (program : List Word) (source : InputSource) (config : Config) : State where
  config := config
  mem := Memory.ofProgram program
  ip := 0
  run := .running
  fault := none
  started := false
  out := []
  input := source
  pulled := 0
  inStep := false

/-- Why the host's request is rejected; the instance does not change (70_reset_and_hazards.md R117, R118). -/
inductive HostError where
  | outOfBounds (address : Int)
  /-- A poke after the first step. -/
  | alreadyStarted
  /-- An answer that no pull waits for. -/
  | noPullWaits
  /-- A read that is not between steps: an IN waits at its pull. -/
  | stepInProgress
  deriving DecidableEq, Repr

/-- `poke(a, v)` (70_reset_and_hazards.md R117, the spec's decision D13). For a poke that is both late and out of
range R117 gives two errors: the late one is reported. DESIGN CHOICE, log entry 9. -/
def poke (a : Int) (v : Word) (s : State) : Except HostError State :=
  if s.started then .error .alreadyStarted
  else if s.mem.InBounds a then .ok (s.store a.toNat v)
  else .error (.outOfBounds a)

/-- A host read is answered between steps only, in any run state (70_reset_and_hazards.md R118, R119, the spec's
decision D14); inside a step it is rejected (log entry 18). -/
def State.betweenSteps {α : Type} (s : State) (read : Except HostError α) : Except HostError α :=
  if s.inStep then .error .stepInProgress else read

/-- `peek(a)` (70_reset_and_hazards.md R118, R119). -/
def peek (a : Int) (s : State) : Except HostError Word :=
  s.betweenSteps (if s.mem.InBounds a then .ok (s.mem.get a.toNat) else .error (.outOfBounds a))

/-- The host reads `IP` (70_reset_and_hazards.md R118, R119). -/
def readIp (s : State) : Except HostError Nat := s.betweenSteps (.ok s.ip)

/-- The host reads `RUN` (70_reset_and_hazards.md R118, R119). -/
def readRun (s : State) : Except HostError RunState := s.betweenSteps (.ok s.run)

/-- The host reads `FAULT`, the pair of kind code and payload (70_reset_and_hazards.md R118, R119, 10_state.md R20). -/
def readFault (s : State) : Except HostError (Nat × Int) := s.betweenSteps (.ok s.faultRecord)

/-- The host reads `OUT` (70_reset_and_hazards.md R118, R119). -/
def readOut (s : State) : Except HostError (List Word) := s.betweenSteps (.ok s.out)

/-- The state after one `step()`. The other two outcomes never happen (log entry 1). -/
def stepState (s : State) : State :=
  match step s with
  | .next t => t
  | .fault _ => s
  | .refused _ => s

/-- What `step()` returns: the new `RUN`, and `FAULT` when `Faulted` (40_execute_cycle.md R79); `none` while it has not
returned, because it waits at a pull (42_io.md R86). -/
def stepResult (s : State) : Option (RunState × Option Fault) :=
  if (stepState s).inStep then none
  else some ((stepState s).run, if (stepState s).run = .faulted then (stepState s).fault else none)

/-- `k` calls of `step()`. -/
def runSteps : Nat → State → State
  | 0, s => s
  | k + 1, s => runSteps k (stepState s)

/-- An IN waits: its step has begun and stands at its pull, which the source has not answered (42_io.md R86). Before
the step begins, and once the pull is answered, nothing waits. -/
def State.waitsAtPull (s : State) : Bool := s.inStep && decide (s.nextAnswer = none)

/-- The source with one more answer. -/
def InputSource.answered (src : InputSource) (answer : InputAnswer) : InputSource :=
  { answers := src.answers ++ [answer], interactive := src.interactive }

/-- The instance whose source has given one more answer; no state of the core changes (10_state.md R24). -/
def State.receiveAnswer (s : State) (answer : InputAnswer) : State := { s with input := s.input.answered answer }

/-- The host answers an input pull, only while an IN waits (70_reset_and_hazards.md R119, 42_io.md R87). The step then
goes on from its pull. -/
def answerPull (answer : InputAnswer) (s : State) : Except HostError State :=
  if s.waitsAtPull then .ok (s.receiveAnswer answer)
  else .error .noPullWaits

/-- The answer a source gives for an integer it has read: one outside `int32` is `Malformed` (42_io.md R87, the
spec's decision D17). -/
def InputAnswer.ofInt (r : Int) : InputAnswer :=
  if minCell ≤ r ∧ r ≤ maxCell then .value (BitVec.ofInt 32 r) else .malformed

/-- How `run_to_completion()` stands (40_execute_cycle.md R78, R79, 60_exceptions.md R106). -/
inductive RunResult where
  /-- It returned `Ok`: the instance is `Halted`. -/
  | ok
  /-- It returned `Err(FAULT)`: the instance is `Faulted`. -/
  | err (f : Option Fault)
  /-- It returned `Aborted` at a step boundary: the instance is still `Running`. -/
  | aborted
  /-- It has not returned: it is inside the step of an IN that has waited at its pull, where no abort takes effect. -/
  | waiting
  deriving DecidableEq, Repr

/-- What `run_to_completion()` returns in a terminal state; `none` while `Running` (40_execute_cycle.md R79). -/
def State.runResult (s : State) : Option RunResult :=
  match s.run with
  | .running => none
  | .halted => some .ok
  | .faulted => some (.err s.fault)

/-- `run_to_completion()` with a host abort after `k` steps (40_execute_cycle.md R78 gives it no limit of its own;
60_exceptions.md R106: an abort takes effect at a step boundary and changes nothing; log entry 17). -/
def runToCompletion : Nat → State → RunResult × State
  | 0, s =>
    match s.runResult with
    | some r => (r, s)
    | none => if s.inStep then (.waiting, s) else (.aborted, s)
  | k + 1, s =>
    match s.runResult with
    | some r => (r, s)
    | none => if (stepState s).inStep then (.waiting, stepState s) else runToCompletion k (stepState s)

/-- Several instances, each with a state of its own (60_exceptions.md R111): one step of instance `k`. -/
def stepOne (k : Nat) (all : List State) : List State := all.modify k stepState

end Sys2Proof.Machine
end

