-- ==== Sys2Proof/Safety.lean ====
section
/-! DEFINITION. The terms claims are made in: what an operand is, which fault an operand gives, and the invariant of
an instance. They are written over memory reads and bounds alone, not over the functions the meanings use. -/

namespace Sys2Proof.Machine

/-- Cell `a` exists and holds `v`. -/
def CellHolds (s : State) (a : Int) (v : Word) : Prop := s.mem.InBounds a ∧ s.mem.get a.toNat = v

/-- The cell of operand `k` exists and holds `p` (40_execute_cycle.md R71). -/
def OperandIs (s : State) (k : Nat) (p : Word) : Prop := CellHolds s (s.ip + k) p

/-- Source operand `k` resolves to `v` (40_execute_cycle.md R72). -/
def SourceIs (s : State) (k : Nat) : Mode → Word → Prop
  | .position, v => ∃ p, OperandIs s k p ∧ CellHolds s p.toInt v
  | .immediate, v => OperandIs s k v

/-- Destination operand `k` is the address `d` (40_execute_cycle.md R73). -/
def DestinationIs (s : State) (k d : Nat) : Prop :=
  ∃ p, OperandIs s k p ∧ s.mem.InBounds p.toInt ∧ d = p.toInt.toNat

/-- The cell of operand `k` does not exist (40_execute_cycle.md R71). -/
def OperandCellFault (s : State) (k : Nat) (f : Fault) : Prop :=
  ¬ s.mem.InBounds (s.ip + k) ∧ f = .outOfBounds (s.ip + k)

/-- The cell of operand `k` holds an address outside memory (40_execute_cycle.md R72, R73). -/
def AddressFault (s : State) (k : Nat) (f : Fault) : Prop :=
  ∃ p, OperandIs s k p ∧ ¬ s.mem.InBounds p.toInt ∧ f = .outOfBounds p.toInt

/-- Source operand `k` gives the fault `f` (60_exceptions.md R102, item 4). -/
def SourceFault (s : State) (k : Nat) (m : Mode) (f : Fault) : Prop :=
  OperandCellFault s k f ∨ (m = .position ∧ AddressFault s k f)

/-- Destination operand `k` gives the fault `f` (60_exceptions.md R102, item 4). -/
def DestinationFault (s : State) (k : Nat) (f : Fault) : Prop := OperandCellFault s k f ∨ AddressFault s k f

/-- The word at `IP` decodes to `i`. -/
def Fetches (s : State) (i : Instr) : Prop := ∃ w, CellHolds s s.ip w ∧ decode w = .ok i

/-- The next step will wait at its pull: the instance runs, the instruction at `IP` is an IN whose destination resolves,
and its source has not answered (42_io.md R86). Says nothing on whether that step has begun. -/
def PullUnanswered (s : State) : Prop :=
  s.run = .running ∧ Fetches s (.inp .position) ∧ (∃ d, DestinationIs s 1 d) ∧
    s.input.interactive = true ∧ s.input.answers.length ≤ s.pulled

/-- The state after a fault, written out (60_exceptions.md R100). -/
def faultedWith (s : State) (f : Fault) : State := { s with run := .faulted, fault := some f }

/-- The payloads R92 allows each fault kind, in an instance with this memory and these parameters. -/
def Fault.Legal (s : State) : Fault → Prop
  | .unknownOpcode c => -99 ≤ c ∧ c ≤ 99 ∧ c ≠ 1 ∧ c ≠ 2 ∧ c ≠ 3 ∧ c ≠ 4 ∧ c ≠ 99
  | .unknownMode d => 2 ≤ d ∧ d ≤ 9
  | .outOfBounds a => ¬ s.mem.InBounds a
  | .inputFault _ => True
  | .immediateDestination k => k = 1 ∨ k = 3
  | .arithmeticOverflow op => (op = 1 ∨ op = 2) ∧ s.config.arithOverflow = .fault

/-- The invariant of an instance. -/
structure StateInv (s : State) : Prop where
  /-- Memory is in its canonical form. -/
  memory : s.mem.wf = true
  /-- `IP` is in `[0, N]` (10_state.md R17). -/
  pointer : s.ip ≤ s.mem.len
  /-- A fault is recorded exactly while `RUN = Faulted` (10_state.md R20). -/
  record : s.run = .faulted ↔ s.fault ≠ none
  /-- The recorded fault has a payload of its kind (60_exceptions.md R92). -/
  legal : ∀ f, s.fault = some f → f.Legal s
  /-- Before the first step nothing has happened (10_state.md R21). -/
  fresh : s.started = false → s.ip = 0 ∧ s.run = .running ∧ s.out = [] ∧ s.pulled = 0
  /-- Nothing is pulled from an interactive source before it has answered (42_io.md R86). -/
  source : s.input.interactive = true → s.pulled ≤ s.input.answers.length
  /-- A step in progress is that of an IN which passed its checks and waits for an interactive source (10_state.md R22,
  42_io.md R86). -/
  progress : s.inStep = true → s.run = .running ∧ s.started = true ∧ Fetches s (.inp .position) ∧
    (∃ d, DestinationIs s 1 d) ∧ s.input.interactive = true

end Sys2Proof.Machine
end

