-- ==== Sys2Proof/Certificates/Slice0/Obligations.lean ====
section
/-! DEFINITION. The statements for the provers. Each docstring says which sentence of the spec it formalises. The
predicates (`SourceIs`, `DestinationIs`, `SourceFault`, `faultedWith`, `StateInv`, …) are in Sys2Proof/Safety.lean. -/

open Sys2Proof Sys2Proof.Machine

/-! ### Encoding -/

/-- Words of 95_test_vectors.md §2.1, written from the digit fields of 30_encoding.md §1, decode to their
instructions. That `100001` and `1099` decode rests on the spec's own decision D4. -/
def Obligations.SpecWordsDecode : Prop :=
  decode 1 = .ok (.add .position .position .position) ∧
  decode 1101 = .ok (.add .immediate .immediate .position) ∧
  decode 1002 = .ok (.mul .position .immediate .position) ∧
  decode 3 = .ok (.inp .position) ∧
  decode 104 = .ok (.out .immediate) ∧
  decode 99 = .ok .hlt ∧
  decode 100001 = .ok (.add .position .position .position) ∧
  decode 1099 = .ok .hlt ∧
  decode 103 = .error (.immediateDestination 1) ∧
  decode 2901 = .error (.unknownMode 9) ∧
  decode 105 = .error (.unknownOpcode 5) ∧
  decode (BitVec.ofInt 32 (-101)) = .error (.unknownOpcode (-1))

/-- Decode and encode agree on every well-formed instruction, and a word decodes to an instruction exactly when it is
not negative and its opcode and read mode digits are those of the canonical word. That digits above are ignored is the
spec's own decision D4, and the list of legal words is its own inference (R60 of 30_encoding.md §5). -/
def Obligations.DecodeInvertsEncode : Prop :=
  (∀ i : Instr, i.wf = true → decode (encode i) = .ok i) ∧
  ∀ (w : Word) (i : Instr),
    decode w = .ok i ↔
      i.wf = true ∧ 0 ≤ w.toInt ∧ w.toInt % 10 ^ (i.width + 1) = (encode i).toInt

/-- R54: "`decode(w)` is the following function ...": for every word, decode gives the opcode and mode list, or the
fault, of the loop over the operands that R54 writes, with exactly `width - 1` modes. -/
def Obligations.DecodeFollowsDigitLoop : Prop :=
  ∀ w : Word,
    (match decode w with
      | .ok i => Except.ok ((i.opcode : Int), i.modes)
      | .error f => Except.error f) = decodeLoop w ∧
    ∀ i, decode w = .ok i → i.modes.length = i.width - 1

/-- R58: a word is illegal exactly when (a), (b) or (c) holds, with the fault named, and its step faults at decode
with no memory write. -/
def Obligations.IllegalWordsExactly : Prop :=
  (∀ w : Word,
    ((∃ f, decode w = .error f) ↔
      (w.toInt.tmod 100 ∉ ({1, 2, 3, 4, 99} : Set Int)) ∨
      (w.toInt.tmod 100 ∈ ({1, 2} : Set Int) ∧ ∃ k ∈ ({2, 3, 4} : Set Nat), 2 ≤ digit w.toInt.toNat k) ∨
      (w.toInt.tmod 100 ∈ ({3, 4} : Set Int) ∧ 2 ≤ digit w.toInt.toNat 2) ∨
      (w.toInt.tmod 100 ∈ ({1, 2} : Set Int) ∧ digit w.toInt.toNat 4 = 1) ∨
      (w.toInt.tmod 100 = 3 ∧ digit w.toInt.toNat 2 = 1)) ∧
    (∀ c, decode w = .error (.unknownOpcode c) ↔
      w.toInt.tmod 100 ∉ ({1, 2, 3, 4, 99} : Set Int) ∧ c = w.toInt.tmod 100) ∧
    (∀ d, decode w = .error (.unknownMode d) → 2 ≤ d ∧ d ≤ 9 ∧
      w.toInt.tmod 100 ∈ ({1, 2, 3, 4} : Set Int) ∧
      ∃ k ∈ ({2, 3, 4} : Set Nat), digit w.toInt.toNat k = d ∧ (w.toInt.tmod 100 ∈ ({3, 4} : Set Int) → k = 2)) ∧
    ∀ k, decode w = .error (.immediateDestination k) →
      (k = 3 ∧ w.toInt.tmod 100 ∈ ({1, 2} : Set Int) ∧ digit w.toInt.toNat 4 = 1) ∨
      (k = 1 ∧ w.toInt.tmod 100 = 3 ∧ digit w.toInt.toNat 2 = 1)) ∧
  ∀ (s : State) (w : Word) (d : DecodeFault),
    s.run = .running → CellHolds s s.ip w → decode w = .error d →
      ∃ t, step s = .next t ∧ t.run = .faulted ∧ t.fault = some (Fault.ofDecode d) ∧ t.mem = s.mem

/-- R49: width and destination are functions of the opcode alone, with the values R49 gives. -/
def Obligations.WidthIsAFunctionOfTheOpcode : Prop :=
  (∀ i j : Instr, i.opcode = j.opcode → i.width = j.width ∧ i.dest = j.dest) ∧
  ∀ i : Instr,
    (i.opcode = 1 → i.width = 4 ∧ i.dest = some 3) ∧ (i.opcode = 2 → i.width = 4 ∧ i.dest = some 3) ∧
    (i.opcode = 3 → i.width = 2 ∧ i.dest = some 1) ∧ (i.opcode = 4 → i.width = 2 ∧ i.dest = none) ∧
    (i.opcode = 99 → i.width = 1 ∧ i.dest = none) ∧ i.opcode ∈ ({1, 2, 3, 4, 99} : Set Nat)

/-! ### The step -/

/-- Where the word at `IP` decodes to `i`, a step sets `STARTED` and is `exec i` (40_execute_cycle.md §2). Setting
`STARTED` at the first step is the spec's own decision D13; that a step in progress is taken up again by the next step
(`inStep`) is the model's choice, log entries 5 and 18. -/
def Obligations.StepRunsDecodedInstruction : Prop :=
  ∀ (s : State) (i : Instr), s.run = .running → Fetches s i → step s = exec i { s with started := true, inStep := false }

/-- R69: a step is the cycle as R69 writes it, over the opcode table and the operand loop, unless it is the step of an IN
whose pull is not answered (that one waits, and has its own statement, `InWaitsForItsAnswer`). -/
def Obligations.StepFollowsTheCycle : Prop :=
  ∀ s : State, ¬ PullUnanswered s → step s = .next (cycle s)

/-- In `Halted` and in `Faulted` a step changes nothing, however often the host asks (40_execute_cycle.md §1, the
spec's own decision D12; 60_exceptions.md §3). -/
def Obligations.TerminalStateIsInert : Prop :=
  ∀ (s : State) (k : Nat), s.run ≠ .running → step s = .next s ∧ runSteps k s = s

/-- A fetch past the last cell raises `OutOfBounds(IP)` and changes nothing else (40_execute_cycle.md §2, the spec's
own decisions D8, D9, D13); no step is in progress after it (log entry 18). -/
def Obligations.FetchPastTheEndFaults : Prop :=
  ∀ s : State, s.run = .running → s.mem.len ≤ s.ip →
    step s = .next (faultedWith { s with started := true, inStep := false } (.outOfBounds s.ip))

/-- R93: `UnknownOpcode(code)` is raised at decode when `w rem 100` is no opcode; the memory is not changed. -/
def Obligations.UnknownOpcodeFaults : Prop :=
  ∀ (s : State) (w : Word), s.run = .running → CellHolds s s.ip w →
    w.toInt.tmod 100 ∉ ({1, 2, 3, 4, 99} : Set Int) →
    ∃ t, step s = .next t ∧ t.run = .faulted ∧ t.fault = some (.unknownOpcode (w.toInt.tmod 100)) ∧ t.mem = s.mem

/-- The word at `IP` is decoded by `decode`; on a decode fault the step ends `Faulted`, whatever the operand cells hold
and whether or not they exist, and nothing but `RUN`, `FAULT` and `STARTED` changes (40_execute_cycle.md §2, the spec's
own decisions D9, D13); no step is in progress after it (log entry 18). -/
def Obligations.DecodeFaultEndsTheStep : Prop :=
  ∀ (s : State) (w : Word) (d : DecodeFault), s.run = .running → CellHolds s s.ip w → decode w = .error d →
    step s = .next (faultedWith { s with started := true, inStep := false } (Fault.ofDecode d))

/-- Every `exec` and every step answers a next state: no instruction is refused and none stops the model. That a fault
is a next state is the model's choice, log entry 1 (60_exceptions.md §2). -/
def Obligations.EveryStepAnswersNext : Prop :=
  (∀ (i : Instr) (s : State), ∃ t, exec i s = .next t) ∧ ∀ s : State, ∃ t, step s = .next t

/-! ### ADD and MUL -/

/-- ADD stores the exact sum of its resolved operands, all read before the write, and advances by 4
(41_arithmetic.md, ADD). -/
def Obligations.AddStoresExactSum : Prop :=
  ∀ (s : State) (a b : Mode) (v1 v2 : Word) (d : Nat),
    SourceIs s 1 a v1 → SourceIs s 2 b v2 → DestinationIs s 3 d → FitsCell (v1.toInt + v2.toInt) →
    ∃ r : Word, r.toInt = v1.toInt + v2.toInt ∧ (s.mem.set d r).get d = r ∧
      exec (.add a b .position) s = .next { s with mem := s.mem.set d r, ip := s.ip + 4 }

/-- MUL stores the exact product of its resolved operands, all read before the write, and advances by 4
(41_arithmetic.md, MUL). -/
def Obligations.MulStoresExactProduct : Prop :=
  ∀ (s : State) (a b : Mode) (v1 v2 : Word) (d : Nat),
    SourceIs s 1 a v1 → SourceIs s 2 b v2 → DestinationIs s 3 d → FitsCell (v1.toInt * v2.toInt) →
    ∃ r : Word, r.toInt = v1.toInt * v2.toInt ∧ (s.mem.set d r).get d = r ∧
      exec (.mul a b .position) s = .next { s with mem := s.mem.set d r, ip := s.ip + 4 }

/-- With `ARITH_OVERFLOW = fault` a result outside `int32` raises `ArithmeticOverflow` with the opcode, and nothing
else changes (41_arithmetic.md, Arithmetic laws: the spec's own decision D2). -/
def Obligations.OverflowFaultsWhenSoConfigured : Prop :=
  ∀ (s : State) (a b : Mode) (v1 v2 : Word) (d : Nat),
    s.config.arithOverflow = .fault →
    SourceIs s 1 a v1 → SourceIs s 2 b v2 → DestinationIs s 3 d →
    (¬ FitsCell (v1.toInt + v2.toInt) →
      exec (.add a b .position) s = .next (faultedWith s (.arithmeticOverflow 1))) ∧
    (¬ FitsCell (v1.toInt * v2.toInt) →
      exec (.mul a b .position) s = .next (faultedWith s (.arithmeticOverflow 2)))

/-- With `ARITH_OVERFLOW = wrap` the value stored is `((r + 2^31) mod 2^32) - 2^31`, for every exact result `r`
(41_arithmetic.md, Arithmetic laws: the spec's own decision D2, from general knowledge). -/
def Obligations.OverflowWrapsWhenSoConfigured : Prop :=
  ∀ (s : State) (a b : Mode) (v1 v2 : Word) (d : Nat),
    s.config.arithOverflow = .wrap →
    SourceIs s 1 a v1 → SourceIs s 2 b v2 → DestinationIs s 3 d →
    (∃ r : Word, r.toInt = (v1.toInt + v2.toInt + 2 ^ 31) % 2 ^ 32 - 2 ^ 31 ∧
      exec (.add a b .position) s = .next { s with mem := s.mem.set d r, ip := s.ip + 4 }) ∧
    ∃ r : Word, r.toInt = (v1.toInt * v2.toInt + 2 ^ 31) % 2 ^ 32 - 2 ^ 31 ∧
      exec (.mul a b .position) s = .next { s with mem := s.mem.set d r, ip := s.ip + 4 }

/-- The first operand of ADD or MUL that faults is the one reported, and nothing else changes (60_exceptions.md §2,
item 4 of the priority list: the spec's own decisions D7, D8, D9). -/
def Obligations.ArithmeticReportsTheFirstOperandFault : Prop :=
  ∀ (s : State) (i : Instr) (a b : Mode) (f : Fault),
    i = .add a b .position ∨ i = .mul a b .position →
    SourceFault s 1 a f ∨
      (∃ v1, SourceIs s 1 a v1 ∧ SourceFault s 2 b f) ∨
      (∃ v1 v2, SourceIs s 1 a v1 ∧ SourceIs s 2 b v2 ∧ DestinationFault s 3 f) →
    exec i s = .next (faultedWith s f)

/-- 0 is the identity of ADD and 1 of MUL, 0 annihilates MUL, on either side, for every parameter value; and swapping
the two sources of ADD or of MUL changes no outcome: the same result is stored, or the same fault is raised
(41_arithmetic.md, Arithmetic laws). -/
def Obligations.ArithmeticIdentitiesAndCommutativity : Prop :=
  (∀ (s : State) (a b : Mode) (v1 v2 : Word) (d : Nat),
    SourceIs s 1 a v1 → SourceIs s 2 b v2 → DestinationIs s 3 d →
    (v1 = 0 → exec (.add a b .position) s = .next { s with mem := s.mem.set d v2, ip := s.ip + 4 } ∧
      exec (.mul a b .position) s = .next { s with mem := s.mem.set d 0, ip := s.ip + 4 }) ∧
    (v2 = 0 → exec (.add a b .position) s = .next { s with mem := s.mem.set d v1, ip := s.ip + 4 } ∧
      exec (.mul a b .position) s = .next { s with mem := s.mem.set d 0, ip := s.ip + 4 }) ∧
    (v1 = 1 → exec (.mul a b .position) s = .next { s with mem := s.mem.set d v2, ip := s.ip + 4 }) ∧
    (v2 = 1 → exec (.mul a b .position) s = .next { s with mem := s.mem.set d v1, ip := s.ip + 4 })) ∧
  ∀ (s s' t t' : State) (a b a' b' : Mode) (v1 v2 : Word) (d : Nat),
    s'.config = s.config → SourceIs s 1 a v1 → SourceIs s 2 b v2 → DestinationIs s 3 d →
    SourceIs s' 1 a' v2 → SourceIs s' 2 b' v1 → DestinationIs s' 3 d →
    (exec (.add a b .position) s = .next t → exec (.add a' b' .position) s' = .next t' →
      (t.mem.get d = t'.mem.get d ∧ t.run = s.run ∧ t'.run = s'.run) ∨
      (t = faultedWith s (.arithmeticOverflow 1) ∧ t' = faultedWith s' (.arithmeticOverflow 1))) ∧
    (exec (.mul a b .position) s = .next t → exec (.mul a' b' .position) s' = .next t' →
      (t.mem.get d = t'.mem.get d ∧ t.run = s.run ∧ t'.run = s'.run) ∨
      (t = faultedWith s (.arithmeticOverflow 2) ∧ t' = faultedWith s' (.arithmeticOverflow 2)))

/-- The frame of ADD and MUL (41_arithmetic.md; 40_execute_cycle.md §3): parameters, memory length, input, output,
`STARTED` and whether a step is in progress are unchanged; every cell but the destination reads as before, and every cell
when the destination does not resolve or the instruction faults; `RUN` and `FAULT` change only together, by a fault, and
then `IP` does not. What a fault leaves (`IP`, memory and `OUT` as they were) is a choice: the spec's own decision D9
(40_execute_cycle.md R76), log entry 12. -/
def Obligations.ArithmeticFrame : Prop :=
  ∀ (s t : State) (i : Instr) (a b c : Mode), i = .add a b c ∨ i = .mul a b c → exec i s = .next t →
    t.config = s.config ∧ t.mem.len = s.mem.len ∧ t.out = s.out ∧ t.input = s.input ∧ t.pulled = s.pulled ∧
    t.started = s.started ∧ t.inStep = s.inStep ∧
    (∀ d, s.destination 3 = .ok d → ∀ x, x ≠ d → t.mem.get x = s.mem.get x) ∧
    (∀ f, s.destination 3 = .error f → ∀ x, t.mem.get x = s.mem.get x) ∧
    ((t.run = s.run ∧ t.fault = s.fault ∧ t.ip = s.ip + 4) ∨
      (t.run = .faulted ∧ t.fault ≠ none ∧ t.ip = s.ip ∧ ∀ x, t.mem.get x = s.mem.get x))

/-! ### IN and OUT -/

/-- IN stores the value its pull is answered with, consumes one answer and advances by 2 (42_io.md, IN). -/
def Obligations.InStoresTheValueRead : Prop :=
  ∀ (s : State) (d : Nat) (v : Word), DestinationIs s 1 d → s.input.answers[s.pulled]? = some (.value v) →
    (s.mem.set d v).get d = v ∧
    exec (.inp .position) s =
      .next { s with mem := s.mem.set d v, pulled := s.pulled + 1, ip := s.ip + 2 }

/-- IN whose pull is answered `Exhausted` (listed so, or past the end of a queue) or `Malformed` raises `InputFault`
with that reason; the answer is consumed and nothing else changes (42_io.md, IN: the spec's own decisions D9, D17; an
empty queue answers `Exhausted` by 95_test_vectors.md). -/
def Obligations.InFaultsOnABadAnswer : Prop :=
  ∀ (s : State) (d : Nat), DestinationIs s 1 d →
    (s.input.answers[s.pulled]? = some .exhausted ∨
        (s.input.answers.length ≤ s.pulled ∧ s.input.interactive = false) →
      exec (.inp .position) s = .next (faultedWith { s with pulled := s.pulled + 1 } (.inputFault .exhausted))) ∧
    (s.input.answers[s.pulled]? = some .malformed →
      exec (.inp .position) s = .next (faultedWith { s with pulled := s.pulled + 1 } (.inputFault .malformed)))

/-- While an interactive source has not answered, a step of IN changes no architectural state but `STARTED`, and stands
at its pull (`inStep`), however often the host asks. The host may answer then and not before; it answers once; and once it
has answered with a value, the same IN stores it and completes (42_io.md, IN: the spec's own decision D16; the wait as a
step that leaves `inStep` set is the model's choice, log entries 5 and 18). -/
def Obligations.InWaitsForItsAnswer : Prop :=
  ∀ (s : State) (d : Nat), s.run = .running → Fetches s (.inp .position) → DestinationIs s 1 d →
    s.input.interactive = true → s.pulled = s.input.answers.length →
    exec (.inp .position) s = .next { s with inStep := true } ∧
    (∀ k, 0 < k → runSteps k s = { s with started := true, inStep := true }) ∧
    (∀ answer, s.inStep = false → answerPull answer s = .error .noPullWaits) ∧
    ∀ (k : Nat) (v : Word), 0 < k →
      ∃ u, answerPull (.value v) (runSteps k s) = .ok u ∧
        (∀ answer, answerPull answer u = .error .noPullWaits) ∧
        step u = .next { u with inStep := false, mem := s.mem.set d v, pulled := s.pulled + 1, ip := s.ip + 2 }

/-- A fault of IN's operand is raised before the source is asked: nothing is pulled (42_io.md, IN: the spec's own
decisions D8, D9). -/
def Obligations.InOperandFaultPullsNothing : Prop :=
  ∀ (s : State) (f : Fault), DestinationFault s 1 f → exec (.inp .position) s = .next (faultedWith s f)

/-- The frame of IN (42_io.md; 40_execute_cycle.md §3). Two of its disjuncts are choices. An unanswered IN answers a
state that differs from `s` in `inStep` alone: the spec's own decision D16 and the model's form of the wait, log entries 5
and 18. What a fault leaves (`IP` and memory as they were): the spec's own decision D9 (40_execute_cycle.md R76), log
entry 12. -/
def Obligations.InFrame : Prop :=
  ∀ (s t : State) (a : Mode), exec (.inp a) s = .next t →
    t.config = s.config ∧ t.mem.len = s.mem.len ∧ t.out = s.out ∧ t.input = s.input ∧ t.started = s.started ∧
    (t.pulled = s.pulled ∨ t.pulled = s.pulled + 1) ∧ (t.inStep = s.inStep ∨ t = { s with inStep := true }) ∧
    (∀ d, s.destination 1 = .ok d → ∀ x, x ≠ d → t.mem.get x = s.mem.get x) ∧
    (∀ f, s.destination 1 = .error f → ∀ x, t.mem.get x = s.mem.get x) ∧
    ((t.run = s.run ∧ t.fault = s.fault ∧ (t = { s with inStep := true } ∨ t.ip = s.ip + 2)) ∨
      (t.run = .faulted ∧ t.fault ≠ none ∧ t.ip = s.ip ∧ ∀ x, t.mem.get x = s.mem.get x))

/-- OUT appends its resolved operand to the output and advances by 2; nothing else changes (42_io.md, OUT; that the
sink never makes it wait is the spec's own decision D24). -/
def Obligations.OutEmitsTheResolvedValue : Prop :=
  ∀ (s : State) (a : Mode) (v : Word), SourceIs s 1 a v →
    exec (.out a) s = .next { s with out := s.out ++ [v], ip := s.ip + 2 }

/-- A faulting OUT emits nothing (42_io.md, OUT: the spec's own decisions D8, D9). -/
def Obligations.FaultingOutEmitsNothing : Prop :=
  ∀ (s : State) (a : Mode) (f : Fault), SourceFault s 1 a f → exec (.out a) s = .next (faultedWith s f)

/-- The frame of OUT: all of memory, the parameters, the input, `STARTED` and whether a step is in progress are
unchanged, and the output only grows (42_io.md). What a fault leaves (`IP` and `OUT` as they were) is a choice: the spec's
own decision D9 (40_execute_cycle.md R76), log entry 12. -/
def Obligations.OutFrame : Prop :=
  ∀ (s t : State) (a : Mode), exec (.out a) s = .next t →
    t.config = s.config ∧ t.mem.len = s.mem.len ∧ (∀ x, t.mem.get x = s.mem.get x) ∧ t.input = s.input ∧
    t.pulled = s.pulled ∧ t.started = s.started ∧ t.inStep = s.inStep ∧
    ((t.run = s.run ∧ t.fault = s.fault ∧ t.ip = s.ip + 2 ∧ ∃ v, t.out = s.out ++ [v]) ∨
      (t.run = .faulted ∧ t.fault ≠ none ∧ t.ip = s.ip ∧ t.out = s.out))

/-! ### HLT -/

/-- HLT sets `RUN = Halted` and changes nothing else: `IP` keeps its address (43_halt.md). -/
def Obligations.HaltOnlyHalts : Prop :=
  ∀ s : State, exec .hlt s = .next { s with run := .halted }

/-- R91: after Halt no step is enabled and no memory changes, the host may read every cell, and a run ends
successfully exactly in `Halted`. -/
def Obligations.AfterHaltNothingHappens : Prop :=
  (∀ s : State, s.run = .running → Fetches s .hlt →
    ∃ t, step s = .next t ∧ t.run = .halted ∧ t.mem = s.mem ∧ (∀ k, runSteps k t = t) ∧
      ∀ a : Int, t.mem.InBounds a → peek a t = .ok (t.mem.get a.toNat)) ∧
  ∀ (k : Nat) (s : State), (runToCompletion k s).1 = .ok ↔ (runToCompletion k s).2.run = .halted

/-! ### The whole machine -/

/-- The invariant holds after reset, and `State.reset` is construction from the empty program with an empty input queue
and the default parameters, which is the model's choice, log entries 3, 4 and 6 (70_reset_and_hazards.md §1). -/
def Obligations.ResetMeetsTheInvariant : Prop :=
  StateInv State.reset ∧ State.reset = construct [] { answers := [], interactive := false } Config.standard

/-- The invariant holds after construction from any program, and the host operations that change an instance keep it:
poke (the spec's own decision D13) and answering a pull (log entry 18) (70_reset_and_hazards.md §1, §2). -/
def Obligations.HostOperationsKeepTheInvariant : Prop :=
  (∀ (p : List Word) (src : InputSource) (cfg : Config), StateInv (construct p src cfg)) ∧
  (∀ (s t : State) (a : Int) (v : Word), StateInv s → poke a v s = .ok t → StateInv t) ∧
  ∀ (s t : State) (answer : InputAnswer), StateInv s → answerPull answer s = .ok t → StateInv t

/-- Every step keeps the invariant: the memory stays canonical, `IP` in `[0, N]` (10_state.md R17, the spec's own
inference), a fault recorded exactly while `Faulted` and with a payload of its kind, nothing done before the first
step, nothing pulled before it is answered, and a step in progress only while a started IN stands at its pull. -/
def Obligations.EveryStepKeepsTheInvariant : Prop :=
  ∀ s t : State, StateInv s → step s = .next t → StateInv t

/-- R115: the state after construction from a program `P`. -/
def Obligations.ConstructionState : Prop :=
  ∀ (p : List Word) (src : InputSource) (cfg : Config) (s : State), s = construct p src cfg →
    s.mem.len = p.length ∧ (∀ i, (h : i < p.length) → s.mem.get i = p[i]) ∧ s.ip = 0 ∧ s.run = .running ∧
    s.fault = none ∧ s.faultRecord = (0, 0) ∧ s.started = false ∧ s.out = [] ∧ s.pulled = 0 ∧ s.input = src

/-- R15: the length of the memory never changes while the instance exists. -/
def Obligations.MemoryLengthNeverChanges : Prop :=
  (∀ (i : Instr) (s t : State), exec i s = .next t → t.mem.len = s.mem.len) ∧
  (∀ s t : State, step s = .next t → t.mem.len = s.mem.len) ∧
  ∀ (k : Nat) (s : State), (runSteps k s).mem.len = s.mem.len

/-- A step that faults leaves the state it began in, but for `RUN`, `FAULT`, `STARTED` and an input answer that a
failed IN consumed, and is over (60_exceptions.md §2: the spec's own decision D9 and inference; log entries 12, 18). -/
def Obligations.FaultsArePrecise : Prop :=
  ∀ s t : State, s.run = .running → step s = .next t → t.run = .faulted →
    ∃ f, t = faultedWith { s with started := true, inStep := false } f ∨
      (t = faultedWith { s with started := true, inStep := false, pulled := s.pulled + 1 } f ∧
        (∃ a, Fetches s (.inp a)) ∧ ∃ r, f = .inputFault r)

/-- R75: a completed instruction but Halt advances `IP` by its width and `IP` stays at most `N`; Halt and every
faulting step leave it. An IN whose pull is not answered does not complete. -/
def Obligations.PointerAdvancesByTheWidth : Prop :=
  ∀ (s t : State) (i : Instr), s.run = .running → Fetches s i → ¬ PullUnanswered s → step s = .next t →
    (t.run = .faulted → t.ip = s.ip) ∧
    (i = .hlt → t.run = .halted ∧ t.ip = s.ip) ∧
    (t.run ≠ .faulted → i ≠ .hlt → t.run = .running ∧ t.ip = s.ip + i.width ∧ t.ip ≤ t.mem.len) ∧
    ((i.opcode = 1 ∨ i.opcode = 2) → t.run ≠ .faulted → t.ip = s.ip + 4)

/-- An IN that reaches its pull and is answered consumes exactly one answer, no other instruction pulls, and no step
changes the source, which is outside the core (10_state.md §6). That a step of an IN whose pull is not answered consumes
nothing is a choice, not that section's: the spec's own decision D16, log entries 5 and 18. -/
def Obligations.OnlyInputPulls : Prop :=
  ∀ s t : State, step s = .next t →
    t.input = s.input ∧
    ((s.run = .running ∧ Fetches s (.inp .position) ∧ (∃ d, DestinationIs s 1 d) ∧ ¬ PullUnanswered s) →
      t.pulled = s.pulled + 1) ∧
    (¬ (s.run = .running ∧ Fetches s (.inp .position) ∧ (∃ d, DestinationIs s 1 d) ∧ ¬ PullUnanswered s) →
      t.pulled = s.pulled)

/-- R23: `OUT` is the sequence of the values emitted by Output instructions, in emission order, empty at reset. -/
def Obligations.OutputIsTheEmittedSequence : Prop :=
  (∀ (p : List Word) (src : InputSource) (cfg : Config), (construct p src cfg).out = []) ∧
  ∀ s t : State, step s = .next t →
    (∀ (a : Mode) (v : Word), s.run = .running → Fetches s (.out a) → SourceIs s 1 a v → t.out = s.out ++ [v]) ∧
    ((¬ ∃ (a : Mode) (v : Word), s.run = .running ∧ Fetches s (.out a) ∧ SourceIs s 1 a v) → t.out = s.out)

/-- A step writes at most the cell its instruction's destination operand names, as the memory before the step gives it
(40_execute_cycle.md §2, 20_memory.md §2; that a faulting step writes nothing is the spec's own decision D9). -/
def Obligations.AtMostTheDestinationIsWritten : Prop :=
  ∀ s t : State, step s = .next t →
    (∀ (i : Instr) (k d : Nat), Fetches s i → i.dest = some k → s.destination k = .ok d →
      ∀ x, x ≠ d → t.mem.get x = s.mem.get x) ∧
    (∀ (i : Instr), Fetches s i → (∀ k d, i.dest = some k → s.destination k ≠ .ok d) → t.mem = s.mem) ∧
    ((∀ i, ¬ Fetches s i) → t.mem = s.mem)

/-- A cell written by a step is fetched as an instruction by the very next one: after an ADD whose destination is the
cell that follows it, the sum is the next instruction (20_memory.md §5, the spec's own decision D18). -/
def Obligations.NextFetchSeesTheWrite : Prop :=
  ∀ (s : State) (a b : Mode) (v1 v2 r : Word) (i : Instr),
    s.run = .running → Fetches s (.add a b .position) →
    SourceIs s 1 a v1 → SourceIs s 2 b v2 → DestinationIs s 3 (s.ip + 4) →
    r.toInt = v1.toInt + v2.toInt → decode r = .ok i →
    ∃ t, step s = .next t ∧ t.ip = s.ip + 4 ∧ t.mem.get t.ip = r ∧ step t = exec i t

/-- `STARTED` is set by the first step and never cleared, and no step changes the parameters (10_state.md §5, the
spec's own decision D13; 00_scope.md §2). -/
def Obligations.StartedIsSetForGood : Prop :=
  ∀ s t : State, step s = .next t →
    (s.run = .running → t.started = true) ∧ (s.started = true → t.started = true) ∧ t.config = s.config

/-- A term that no word decodes to, with an Immediate destination, raises `ImmediateDestination` before any operand is
read. The model's choice, log entry 8 (30_encoding.md §2). -/
def Obligations.ImmediateDestinationTermsFault : Prop :=
  ∀ (s : State) (a b : Mode),
    exec (.add a b .immediate) s = .next (faultedWith s (.immediateDestination 3)) ∧
    exec (.mul a b .immediate) s = .next (faultedWith s (.immediateDestination 3)) ∧
    exec (.inp .immediate) s = .next (faultedWith s (.immediateDestination 1))

/-- The host-visible codes of `RUN` and of `FAULT` with its payload (10_state.md §4, 60_exceptions.md §1: the spec's
own decisions D10, D11). -/
def Obligations.HostVisibleCodes : Prop :=
  RunState.running.code = 0 ∧ RunState.halted.code = 1 ∧ RunState.faulted.code = 2 ∧
  ∀ s : State,
    (s.fault = none → s.faultRecord = (0, 0)) ∧
    (∀ c, s.fault = some (.unknownOpcode c) → s.faultRecord = (1, c)) ∧
    (∀ d : Nat, s.fault = some (.unknownMode d) → s.faultRecord = (2, (d : Int))) ∧
    (∀ a, s.fault = some (.outOfBounds a) → s.faultRecord = (3, a)) ∧
    (s.fault = some (.inputFault .exhausted) → s.faultRecord = (4, 0)) ∧
    (s.fault = some (.inputFault .malformed) → s.faultRecord = (4, 1)) ∧
    (∀ k : Nat, s.fault = some (.immediateDestination k) → s.faultRecord = (5, (k : Int))) ∧
    ∀ op : Nat, s.fault = some (.arithmeticOverflow op) → s.faultRecord = (6, (op : Int))

/-! ### The host -/

/-- A poke before the first step sets one cell and nothing else; out of range or after the first step it is rejected
(70_reset_and_hazards.md §2, the spec's own decision D13). -/
def Obligations.PokeOnlyBeforeTheFirstStep : Prop :=
  ∀ (s : State) (a : Int) (v : Word),
    (s.started = false → s.mem.InBounds a →
      ∃ t, poke a v s = .ok t ∧ t = { s with mem := t.mem } ∧ t.mem.len = s.mem.len ∧ t.mem.get a.toNat = v ∧
        ∀ x, x ≠ a.toNat → t.mem.get x = s.mem.get x) ∧
    (s.started = false → ¬ s.mem.InBounds a → poke a v s = .error (.outOfBounds a)) ∧
    (s.started = true → ∃ e, poke a v s = .error e) ∧
    (∀ t, step s = .next t → s.run = .running → ∃ e, poke a v t = .error e)

/-- R79: what a step that is over and a run to completion return (a step that stands at an unanswered pull is not over:
`StepIsOverUnlessAnInWaits`). -/
def Obligations.StepAndRunResults : Prop :=
  (∀ s t : State, step s = .next t → t.inStep = false →
    ∃ f, stepResult s = some (t.run, f) ∧ (t.run = .faulted → f = t.fault)) ∧
  ∀ (k : Nat) (s : State),
    ((runToCompletion k s).2.run = .halted ↔ (runToCompletion k s).1 = .ok) ∧
    ((runToCompletion k s).2.run = .faulted →
      (runToCompletion k s).1 = .err (runToCompletion k s).2.fault) ∧
    (∀ f, (runToCompletion k s).1 = .err f →
      (runToCompletion k s).2.run = .faulted ∧ (runToCompletion k s).2.fault = f)

/-- An abort comes between two steps and changes nothing: the instance is `Running`, no step is in progress, and the state
is the one its completed steps left (60_exceptions.md §4, the spec's own decision D15; the model's form is log entries 17
and 18). -/
def Obligations.AbortComesBetweenSteps : Prop :=
  ∀ (k : Nat) (s : State), (runToCompletion k s).1 = .aborted →
    (runToCompletion k s).2.run = .running ∧ (runToCompletion k s).2.inStep = false ∧
      (runToCompletion k s).2 = runSteps k s

/-- A step of one instance leaves every other as it was, and steps of two instances commute (20_memory.md §6,
60_exceptions.md §6, 70_reset_and_hazards.md §2). Instances as a list of states is the model's choice, log entry 19. -/
def Obligations.InstancesAreIsolated : Prop :=
  (∀ (all : List State) (j k : Nat), j ≠ k → (stepOne k all)[j]? = all[j]?) ∧
  (∀ (all : List State) (k : Nat), (stepOne k all)[k]? = all[k]?.map stepState) ∧
  ∀ (all : List State) (j k : Nat), stepOne j (stepOne k all) = stepOne k (stepOne j all)

/-- The host answers a pull only while an IN waits: the request is taken exactly while a step is in progress at an
unanswered pull, and does nothing but extend the source. In an instance that meets the invariant the step of an IN has then
begun, so `STARTED = 1` and no poke can replace that IN, before or after the answer (70_reset_and_hazards.md §2; that a
poke after the first step is rejected is the spec's own decision D13; that it is reported as late, even where its address
is out of range too, is the model's choice, log entry 9; holding the step in progress as `inStep` is the model's choice,
log entry 18). -/
def Obligations.AnswersOnlyWhileAnInWaits : Prop :=
  ∀ (s : State) (answer : InputAnswer),
    (¬ (s.inStep = true ∧ s.input.interactive = true ∧ s.input.answers.length ≤ s.pulled) →
      answerPull answer s = .error .noPullWaits) ∧
    ((s.inStep = true ∧ s.input.interactive = true ∧ s.input.answers.length ≤ s.pulled) →
      answerPull answer s = .ok { s with input := { s.input with answers := s.input.answers ++ [answer] } }) ∧
    ∀ t, StateInv s → answerPull answer s = .ok t →
      PullUnanswered s ∧ s.started = true ∧ Fetches t (.inp .position) ∧ t.inStep = true ∧
      (∀ (a : Int) (v : Word), poke a v s = .error .alreadyStarted ∧ poke a v t = .error .alreadyStarted) ∧
      ∃ u, step t = .next u ∧ u.inStep = false ∧ u.pulled = s.pulled + 1

/-- A step of a running instance is over unless it stands at the unanswered pull of an IN. There nothing but `STARTED` and
`inStep` has changed, the host has no result yet, and neither a step result nor an abort ends the run (10_state.md §5,
42_io.md IN: the spec's own decisions D15, D16; `inStep` and the unfinished results are the model's choice, log entries 5,
17 and 18). -/
def Obligations.StepIsOverUnlessAnInWaits : Prop :=
  ∀ s t : State, s.run = .running → step s = .next t →
    (t.inStep = true ↔ PullUnanswered s) ∧
    (t.inStep = true → t = { s with started := true, inStep := true } ∧ stepResult s = none ∧
      ∀ k, 0 < k → runToCompletion k s = (.waiting, t))

/-- The host reads a cell only between steps, in any run state, and reads the value it holds (70_reset_and_hazards.md §2,
the spec's own decision D14; which error a read inside a step gets is the model's choice, log entry 18). -/
def Obligations.PeekOnlyBetweenSteps : Prop :=
  ∀ (s : State) (a : Int),
    (s.inStep = false → s.mem.InBounds a → peek a s = .ok (s.mem.get a.toNat)) ∧
    (s.inStep = false → ¬ s.mem.InBounds a → peek a s = .error (.outOfBounds a)) ∧
    (s.inStep = true → peek a s = .error .stepInProgress)

/-- The host reads `IP`, `RUN`, `FAULT` and `OUT` between steps, in any run state, and reads the values they hold; inside
a step each read is rejected. A running instance's step that is not that of an IN with an unanswered pull returns, and all
four can be read after it; after the other none can (70_reset_and_hazards.md §2, the spec's own decisions D14, D16; that a
waiting step is a step in progress, and which error a read inside a step gets, is the model's choice, log entries 5 and
18). -/
def Obligations.RegistersReadOnlyBetweenSteps : Prop :=
  (∀ s : State,
    (s.inStep = false →
      readIp s = .ok s.ip ∧ readRun s = .ok s.run ∧ readFault s = .ok s.faultRecord ∧ readOut s = .ok s.out) ∧
    (s.inStep = true →
      readIp s = .error .stepInProgress ∧ readRun s = .error .stepInProgress ∧
      readFault s = .error .stepInProgress ∧ readOut s = .error .stepInProgress)) ∧
  ∀ s t : State, s.run = .running → step s = .next t →
    (¬ PullUnanswered s →
      readIp t = .ok t.ip ∧ readRun t = .ok t.run ∧ readFault t = .ok t.faultRecord ∧ readOut t = .ok t.out) ∧
    (PullUnanswered s →
      readIp t = .error .stepInProgress ∧ readRun t = .error .stepInProgress ∧
      readFault t = .error .stepInProgress ∧ readOut t = .error .stepInProgress)
end

