-- ==== Sys2Proof/Laws/State.lean ====
section
/-! SUPPORT. One lemma per field per state update, so that no proof unfolds a record update. -/

namespace Sys2Proof.Machine

/-! ### State.store -/

@[simp] theorem State.store_config (s : State) (a : Nat) (v : Word) : (s.store a v).config = s.config := rfl
@[simp] theorem State.store_mem (s : State) (a : Nat) (v : Word) : (s.store a v).mem = s.mem.set a v := rfl
@[simp] theorem State.store_ip (s : State) (a : Nat) (v : Word) : (s.store a v).ip = s.ip := rfl
@[simp] theorem State.store_run (s : State) (a : Nat) (v : Word) : (s.store a v).run = s.run := rfl
@[simp] theorem State.store_fault (s : State) (a : Nat) (v : Word) : (s.store a v).fault = s.fault := rfl
@[simp] theorem State.store_started (s : State) (a : Nat) (v : Word) : (s.store a v).started = s.started := rfl
@[simp] theorem State.store_out (s : State) (a : Nat) (v : Word) : (s.store a v).out = s.out := rfl
@[simp] theorem State.store_input (s : State) (a : Nat) (v : Word) : (s.store a v).input = s.input := rfl
@[simp] theorem State.store_pulled (s : State) (a : Nat) (v : Word) : (s.store a v).pulled = s.pulled := rfl
@[simp] theorem State.store_inStep (s : State) (a : Nat) (v : Word) : (s.store a v).inStep = s.inStep := rfl

/-! ### State.advance -/

@[simp] theorem State.advance_config (s : State) (n : Nat) : (s.advance n).config = s.config := rfl
@[simp] theorem State.advance_mem (s : State) (n : Nat) : (s.advance n).mem = s.mem := rfl
@[simp] theorem State.advance_ip (s : State) (n : Nat) : (s.advance n).ip = s.ip + n := rfl
@[simp] theorem State.advance_run (s : State) (n : Nat) : (s.advance n).run = s.run := rfl
@[simp] theorem State.advance_fault (s : State) (n : Nat) : (s.advance n).fault = s.fault := rfl
@[simp] theorem State.advance_started (s : State) (n : Nat) : (s.advance n).started = s.started := rfl
@[simp] theorem State.advance_out (s : State) (n : Nat) : (s.advance n).out = s.out := rfl
@[simp] theorem State.advance_input (s : State) (n : Nat) : (s.advance n).input = s.input := rfl
@[simp] theorem State.advance_pulled (s : State) (n : Nat) : (s.advance n).pulled = s.pulled := rfl
@[simp] theorem State.advance_inStep (s : State) (n : Nat) : (s.advance n).inStep = s.inStep := rfl

/-! ### State.raise -/

@[simp] theorem State.raise_config (s : State) (f : Fault) : (s.raise f).config = s.config := rfl
@[simp] theorem State.raise_mem (s : State) (f : Fault) : (s.raise f).mem = s.mem := rfl
@[simp] theorem State.raise_ip (s : State) (f : Fault) : (s.raise f).ip = s.ip := rfl
@[simp] theorem State.raise_run (s : State) (f : Fault) : (s.raise f).run = .faulted := rfl
@[simp] theorem State.raise_fault (s : State) (f : Fault) : (s.raise f).fault = some f := rfl
@[simp] theorem State.raise_started (s : State) (f : Fault) : (s.raise f).started = s.started := rfl
@[simp] theorem State.raise_out (s : State) (f : Fault) : (s.raise f).out = s.out := rfl
@[simp] theorem State.raise_input (s : State) (f : Fault) : (s.raise f).input = s.input := rfl
@[simp] theorem State.raise_pulled (s : State) (f : Fault) : (s.raise f).pulled = s.pulled := rfl
@[simp] theorem State.raise_inStep (s : State) (f : Fault) : (s.raise f).inStep = s.inStep := rfl

/-! ### State.halt -/

@[simp] theorem State.halt_config (s : State) : (s.halt).config = s.config := rfl
@[simp] theorem State.halt_mem (s : State) : (s.halt).mem = s.mem := rfl
@[simp] theorem State.halt_ip (s : State) : (s.halt).ip = s.ip := rfl
@[simp] theorem State.halt_run (s : State) : (s.halt).run = .halted := rfl
@[simp] theorem State.halt_fault (s : State) : (s.halt).fault = s.fault := rfl
@[simp] theorem State.halt_started (s : State) : (s.halt).started = s.started := rfl
@[simp] theorem State.halt_out (s : State) : (s.halt).out = s.out := rfl
@[simp] theorem State.halt_input (s : State) : (s.halt).input = s.input := rfl
@[simp] theorem State.halt_pulled (s : State) : (s.halt).pulled = s.pulled := rfl
@[simp] theorem State.halt_inStep (s : State) : (s.halt).inStep = s.inStep := rfl

/-! ### State.start -/

@[simp] theorem State.start_config (s : State) : (s.start).config = s.config := rfl
@[simp] theorem State.start_mem (s : State) : (s.start).mem = s.mem := rfl
@[simp] theorem State.start_ip (s : State) : (s.start).ip = s.ip := rfl
@[simp] theorem State.start_run (s : State) : (s.start).run = s.run := rfl
@[simp] theorem State.start_fault (s : State) : (s.start).fault = s.fault := rfl
@[simp] theorem State.start_started (s : State) : (s.start).started = true := rfl
@[simp] theorem State.start_out (s : State) : (s.start).out = s.out := rfl
@[simp] theorem State.start_input (s : State) : (s.start).input = s.input := rfl
@[simp] theorem State.start_pulled (s : State) : (s.start).pulled = s.pulled := rfl
@[simp] theorem State.start_inStep (s : State) : (s.start).inStep = false := rfl

/-! ### State.wait -/

@[simp] theorem State.wait_config (s : State) : (s.wait).config = s.config := rfl
@[simp] theorem State.wait_mem (s : State) : (s.wait).mem = s.mem := rfl
@[simp] theorem State.wait_ip (s : State) : (s.wait).ip = s.ip := rfl
@[simp] theorem State.wait_run (s : State) : (s.wait).run = s.run := rfl
@[simp] theorem State.wait_fault (s : State) : (s.wait).fault = s.fault := rfl
@[simp] theorem State.wait_started (s : State) : (s.wait).started = s.started := rfl
@[simp] theorem State.wait_out (s : State) : (s.wait).out = s.out := rfl
@[simp] theorem State.wait_input (s : State) : (s.wait).input = s.input := rfl
@[simp] theorem State.wait_pulled (s : State) : (s.wait).pulled = s.pulled := rfl
@[simp] theorem State.wait_inStep (s : State) : (s.wait).inStep = true := rfl

/-! ### State.emit -/

@[simp] theorem State.emit_config (s : State) (v : Word) : (s.emit v).config = s.config := rfl
@[simp] theorem State.emit_mem (s : State) (v : Word) : (s.emit v).mem = s.mem := rfl
@[simp] theorem State.emit_ip (s : State) (v : Word) : (s.emit v).ip = s.ip := rfl
@[simp] theorem State.emit_run (s : State) (v : Word) : (s.emit v).run = s.run := rfl
@[simp] theorem State.emit_fault (s : State) (v : Word) : (s.emit v).fault = s.fault := rfl
@[simp] theorem State.emit_started (s : State) (v : Word) : (s.emit v).started = s.started := rfl
@[simp] theorem State.emit_out (s : State) (v : Word) : (s.emit v).out = s.out ++ [v] := rfl
@[simp] theorem State.emit_input (s : State) (v : Word) : (s.emit v).input = s.input := rfl
@[simp] theorem State.emit_pulled (s : State) (v : Word) : (s.emit v).pulled = s.pulled := rfl
@[simp] theorem State.emit_inStep (s : State) (v : Word) : (s.emit v).inStep = s.inStep := rfl

/-! ### State.pullOne -/

@[simp] theorem State.pullOne_config (s : State) : (s.pullOne).config = s.config := rfl
@[simp] theorem State.pullOne_mem (s : State) : (s.pullOne).mem = s.mem := rfl
@[simp] theorem State.pullOne_ip (s : State) : (s.pullOne).ip = s.ip := rfl
@[simp] theorem State.pullOne_run (s : State) : (s.pullOne).run = s.run := rfl
@[simp] theorem State.pullOne_fault (s : State) : (s.pullOne).fault = s.fault := rfl
@[simp] theorem State.pullOne_started (s : State) : (s.pullOne).started = s.started := rfl
@[simp] theorem State.pullOne_out (s : State) : (s.pullOne).out = s.out := rfl
@[simp] theorem State.pullOne_input (s : State) : (s.pullOne).input = s.input := rfl
@[simp] theorem State.pullOne_pulled (s : State) : (s.pullOne).pulled = s.pulled + 1 := rfl
@[simp] theorem State.pullOne_inStep (s : State) : (s.pullOne).inStep = s.inStep := rfl

/-! ### State.receiveAnswer -/

@[simp] theorem State.receiveAnswer_config (s : State) (answer : InputAnswer) : (s.receiveAnswer answer).config = s.config := rfl
@[simp] theorem State.receiveAnswer_mem (s : State) (answer : InputAnswer) : (s.receiveAnswer answer).mem = s.mem := rfl
@[simp] theorem State.receiveAnswer_ip (s : State) (answer : InputAnswer) : (s.receiveAnswer answer).ip = s.ip := rfl
@[simp] theorem State.receiveAnswer_run (s : State) (answer : InputAnswer) : (s.receiveAnswer answer).run = s.run := rfl
@[simp] theorem State.receiveAnswer_fault (s : State) (answer : InputAnswer) : (s.receiveAnswer answer).fault = s.fault := rfl
@[simp] theorem State.receiveAnswer_started (s : State) (answer : InputAnswer) : (s.receiveAnswer answer).started = s.started := rfl
@[simp] theorem State.receiveAnswer_out (s : State) (answer : InputAnswer) : (s.receiveAnswer answer).out = s.out := rfl
@[simp] theorem State.receiveAnswer_input (s : State) (answer : InputAnswer) : (s.receiveAnswer answer).input = s.input.answered answer := rfl
@[simp] theorem State.receiveAnswer_pulled (s : State) (answer : InputAnswer) : (s.receiveAnswer answer).pulled = s.pulled := rfl
@[simp] theorem State.receiveAnswer_inStep (s : State) (answer : InputAnswer) : (s.receiveAnswer answer).inStep = s.inStep := rfl

/-! ### Other views of the same updates -/

theorem State.raise_eq_faultedWith (s : State) (f : Fault) : s.raise f = faultedWith s f := rfl

/-- The bounds of memory see only its length. -/
theorem Memory.inBounds_ofNat (m : Memory) (a : Nat) : m.InBounds a ↔ a < m.len := by
  simp [Memory.InBounds]

end Sys2Proof.Machine
end

