-- ==== Sys2Proof/Laws/Decode.lean ====
section
/-! SUPPORT. What the pieces of the decoder can answer (30_encoding.md R46 to R55). -/

namespace Sys2Proof

theorem digit_lt (w k : Nat) : digit w k < 10 := Nat.mod_lt _ (by norm_num)

theorem decodeMode_eq_ok_iff {d : Nat} {m : Mode} : decodeMode d = .ok m ↔ d = m.digit := by
  unfold decodeMode
  cases m <;> simp only [Mode.digit] <;> split <;> (try split) <;> simp <;> omega

theorem decodeMode_eq_error_iff {d : Nat} {f : DecodeFault} :
    decodeMode d = .error f ↔ d ≠ 0 ∧ d ≠ 1 ∧ f = .unknownMode d := by
  unfold decodeMode
  split
  · simp [*]
  · split <;> simp [*, eq_comm]

theorem decodeSource_eq_ok_iff {w k : Nat} {m : Mode} : decodeSource w k = .ok m ↔ digit w (k + 1) = m.digit :=
  decodeMode_eq_ok_iff

theorem decodeSource_eq_error_iff {w k : Nat} {f : DecodeFault} :
    decodeSource w k = .error f ↔ digit w (k + 1) ≠ 0 ∧ digit w (k + 1) ≠ 1 ∧ f = .unknownMode (digit w (k + 1)) :=
  decodeMode_eq_error_iff

theorem decodeDestination_eq_ok_iff {w k : Nat} {m : Mode} :
    decodeDestination w k = .ok m ↔ m = .position ∧ digit w (k + 1) = 0 := by
  unfold decodeDestination
  split
  · rename_i f h
    rw [decodeMode_eq_error_iff] at h
    simp [h.1]
  · rename_i h
    rw [decodeMode_eq_ok_iff] at h
    simp [h, Mode.digit]
  · rename_i h
    rw [decodeMode_eq_ok_iff] at h
    simp [h, Mode.digit, eq_comm]

theorem decodeDestination_eq_error_iff {w k : Nat} {f : DecodeFault} :
    decodeDestination w k = .error f ↔
      (digit w (k + 1) ≠ 0 ∧ digit w (k + 1) ≠ 1 ∧ f = .unknownMode (digit w (k + 1))) ∨
      (digit w (k + 1) = 1 ∧ f = .immediateDestination k) := by
  unfold decodeDestination
  split
  · rename_i g h
    rw [decodeMode_eq_error_iff] at h
    simp [h, eq_comm]
  · rename_i h
    rw [decodeMode_eq_ok_iff] at h
    simp [h, Mode.digit, eq_comm]
  · rename_i h
    rw [decodeMode_eq_ok_iff] at h
    simp [h, Mode.digit]

theorem decodeF4_eq_ok_iff {build : Mode → Mode → Mode → Instr} {w : Nat} {i : Instr} :
    decodeF4 build w = .ok i ↔
      ∃ a b, digit w 2 = a.digit ∧ digit w 3 = b.digit ∧ digit w 4 = 0 ∧ i = build a b .position := by
  unfold decodeF4
  constructor
  · intro h
    split at h
    · simp at h
    · rename_i a ha
      split at h
      · simp at h
      · rename_i b hb
        split at h
        · simp at h
        · rename_i c hc
          obtain ⟨rfl, h4⟩ := decodeDestination_eq_ok_iff.1 hc
          cases h
          exact ⟨a, b, decodeSource_eq_ok_iff.1 ha, decodeSource_eq_ok_iff.1 hb, h4, rfl⟩
  · rintro ⟨a, b, ha, hb, h4, rfl⟩
    rw [decodeSource_eq_ok_iff.2 ha, decodeSource_eq_ok_iff.2 hb]
    simp only
    rw [decodeDestination_eq_ok_iff.2 ⟨rfl, h4⟩]

theorem decodeF2_eq_ok_iff {build : Mode → Instr} {r : Except DecodeFault Mode} {i : Instr} :
    decodeF2 build r = .ok i ↔ ∃ a, r = .ok a ∧ i = build a := by
  cases r <;> simp [decodeF2, eq_comm]

/-- A word with a valid opcode is not negative (30_encoding.md R47: `code` has the sign of `w`). -/
theorem toInt_nonneg_of_opcode {w : Word} {c : Int} (hc : 0 < c) (h : opcodeValue w = c) : 0 ≤ w.toInt := by
  unfold opcodeValue at h
  by_contra hneg
  have hmod := Int.tmod_nonneg 100 (by omega : 0 ≤ -w.toInt)
  rw [Int.neg_tmod] at hmod
  omega

/-- For a non-negative word the opcode value is its two low digits (30_encoding.md R46, R47). -/
theorem opcodeValue_of_nonneg {w : Word} (h : 0 ≤ w.toInt) : opcodeValue w = (w.toInt.toNat % 100 : Nat) := by
  unfold opcodeValue
  rw [Int.tmod_eq_emod_of_nonneg h]
  omega

/-- Every word that decodes, by opcode and mode digits. -/
theorem decode_eq_ok_iff {w : Word} {i : Instr} :
    decode w = .ok i ↔
      (opcodeValue w = 1 ∧ ∃ a b, digit w.toInt.toNat 2 = a.digit ∧ digit w.toInt.toNat 3 = b.digit ∧
        digit w.toInt.toNat 4 = 0 ∧ i = .add a b .position) ∨
      (opcodeValue w = 2 ∧ ∃ a b, digit w.toInt.toNat 2 = a.digit ∧ digit w.toInt.toNat 3 = b.digit ∧
        digit w.toInt.toNat 4 = 0 ∧ i = .mul a b .position) ∨
      (opcodeValue w = 3 ∧ digit w.toInt.toNat 2 = 0 ∧ i = .inp .position) ∨
      (opcodeValue w = 4 ∧ ∃ a, digit w.toInt.toNat 2 = a.digit ∧ i = .out a) ∨
      (opcodeValue w = 99 ∧ i = .hlt) := by
  unfold decode
  split
  · rename_i h; simp [h, decodeF4_eq_ok_iff]
  split
  · rename_i h; simp [h, decodeF4_eq_ok_iff]
  split
  · rename_i h; simp [h, decodeF2_eq_ok_iff, decodeDestination_eq_ok_iff]
  split
  · rename_i h; simp [h, decodeF2_eq_ok_iff, decodeSource_eq_ok_iff]
  split
  · rename_i h; simp [h, eq_comm]
  · simp [*]

/-- What a word decodes to is well-formed. -/
theorem wf_of_decode {w : Word} {i : Instr} (h : decode w = .ok i) : i.wf = true := by
  rcases decode_eq_ok_iff.1 h with ⟨-, a, b, -, -, -, rfl⟩ | ⟨-, a, b, -, -, -, rfl⟩ | ⟨-, -, rfl⟩ | ⟨-, a, -, rfl⟩ | ⟨-, rfl⟩ <;>
    rfl

/-- A word whose opcode value is no opcode (30_encoding.md R58 (a)). -/
theorem decode_of_unknownOpcode {w : Word} (h : opcodeValue w ≠ 1 ∧ opcodeValue w ≠ 2 ∧ opcodeValue w ≠ 3 ∧
    opcodeValue w ≠ 4 ∧ opcodeValue w ≠ 99) : decode w = .error (.unknownOpcode (opcodeValue w)) := by
  simp [decode, h]

/-- The value of the canonical word (30_encoding.md R50). -/
theorem toInt_encode (i : Instr) : (encode i).toInt = (i.opcode + 100 * modeDigits i.modes : Nat) := by
  rcases i with ⟨a, b, c⟩ | ⟨a, b, c⟩ | a | a | _
  · cases a <;> cases b <;> cases c <;> decide
  · cases a <;> cases b <;> cases c <;> decide
  · cases a <;> decide
  · cases a <;> decide
  · decide

end Sys2Proof
end

