-- ==== Sys2Proof/Laws/Memory.lean ====
section
/-! SUPPORT. Memory: a read after a write, the canonical form and what it gives, memory at construction. -/

namespace Sys2Proof.Machine

/-! ### Reads after writes -/

theorem cellAt_of_no_entry {l : List (Nat × Word)} {a : Nat} (h : ∀ c ∈ l, c.1 ≠ a) : cellAt l a = Memory.unlisted := by
  induction l with
  | nil => rfl
  | cons c rest ih =>
    have hc : c.1 ≠ a := h c (by simp)
    have hrest : ∀ c ∈ rest, c.1 ≠ a := fun d hd => h d (by simp [hd])
    simp [cellAt, hc, ih hrest]

theorem fst_ne_of_mem_eraseCell {l : List (Nat × Word)} {a : Nat} : ∀ c ∈ eraseCell a l, c.1 ≠ a := by
  induction l with
  | nil => simp [eraseCell]
  | cons c rest ih =>
    by_cases hc : c.1 = a
    · simpa [eraseCell, hc] using ih
    · intro d hd
      simp only [eraseCell, hc, if_false, List.mem_cons] at hd
      rcases hd with rfl | hd
      · exact hc
      · exact ih d hd

theorem cellAt_eraseCell_ne {l : List (Nat × Word)} {a b : Nat} (h : b ≠ a) :
    cellAt (eraseCell a l) b = cellAt l b := by
  induction l with
  | nil => rfl
  | cons c rest ih =>
    by_cases hc : c.1 = a
    · have hcb : c.1 ≠ b := fun e => h (e.symm.trans hc)
      simp [eraseCell, cellAt, hc, ih, Ne.symm h]
    · simp [eraseCell, cellAt, hc, ih]

theorem cellAt_insertCell_same {l : List (Nat × Word)} {a : Nat} {v : Word} (h : ∀ c ∈ l, c.1 ≠ a) :
    cellAt (insertCell a v l) a = v := by
  induction l with
  | nil => simp [insertCell, cellAt]
  | cons c rest ih =>
    have hc : c.1 ≠ a := h c (by simp)
    have hrest : ∀ c ∈ rest, c.1 ≠ a := fun d hd => h d (by simp [hd])
    by_cases hlt : a < c.1
    · simp [insertCell, cellAt, hlt]
    · simp [insertCell, cellAt, hlt, hc, ih hrest]

theorem cellAt_insertCell_ne {l : List (Nat × Word)} {a b : Nat} {v : Word} (h : b ≠ a) :
    cellAt (insertCell a v l) b = cellAt l b := by
  induction l with
  | nil => simp [insertCell, cellAt, Ne.symm h]
  | cons c rest ih =>
    by_cases hlt : a < c.1
    · simp [insertCell, cellAt, hlt, Ne.symm h]
    · simp [insertCell, cellAt, hlt, ih]

/-- A read of the cell written gives the value written (20_memory.md R39). -/
@[simp] theorem Memory.get_set_same (m : Memory) (a : Nat) (v : Word) : (m.set a v).get a = v := by
  by_cases hv : v = Memory.unlisted
  · simp [Memory.get, Memory.set, hv, cellAt_of_no_entry fst_ne_of_mem_eraseCell]
  · simp [Memory.get, Memory.set, hv, cellAt_insertCell_same fst_ne_of_mem_eraseCell]

/-- A write leaves every other cell alone. -/
theorem Memory.get_set_ne (m : Memory) {a b : Nat} (v : Word) (h : b ≠ a) : (m.set a v).get b = m.get b := by
  by_cases hv : v = Memory.unlisted
  · simp [Memory.get, Memory.set, hv, cellAt_eraseCell_ne h]
  · simp [Memory.get, Memory.set, hv, cellAt_insertCell_ne h, cellAt_eraseCell_ne h]

/-- A write never changes the length (10_state.md R15). -/
@[simp] theorem Memory.set_len (m : Memory) (a : Nat) (v : Word) : (m.set a v).len = m.len := rfl

/-! ### The canonical form -/

theorem cellsCanonical_cons {len lo a : Nat} {v : Word} {rest : List (Nat × Word)} :
    cellsCanonical len lo ((a, v) :: rest) = true ↔
      lo ≤ a ∧ a < len ∧ v ≠ Memory.unlisted ∧ cellsCanonical len (a + 1) rest = true := by
  simp [cellsCanonical, and_assoc]

theorem cellsCanonical_mono {len lo lo' : Nat} {l : List (Nat × Word)} (hlo : lo' ≤ lo)
    (h : cellsCanonical len lo l = true) : cellsCanonical len lo' l = true := by
  cases l with
  | nil => rfl
  | cons c rest =>
    rw [cellsCanonical_cons] at h ⊢
    exact ⟨hlo.trans h.1, h.2⟩

theorem cellsCanonical_eraseCell {len : Nat} {a : Nat} {l : List (Nat × Word)} :
    ∀ {lo}, cellsCanonical len lo l = true → cellsCanonical len lo (eraseCell a l) = true := by
  induction l with
  | nil => intro _ _; rfl
  | cons c rest ih =>
    intro lo h
    rw [cellsCanonical_cons] at h
    by_cases hc : c.1 = a
    · simpa [eraseCell, hc] using ih (cellsCanonical_mono (by omega) h.2.2.2)
    · simp only [eraseCell, hc, if_false]
      rw [cellsCanonical_cons]
      exact ⟨h.1, h.2.1, h.2.2.1, ih h.2.2.2⟩

theorem cellsCanonical_insertCell {len a : Nat} {v : Word} {l : List (Nat × Word)} (ha : a < len)
    (hv : v ≠ Memory.unlisted) : ∀ {lo}, lo ≤ a → (∀ c ∈ l, c.1 ≠ a) → cellsCanonical len lo l = true →
      cellsCanonical len lo (insertCell a v l) = true := by
  induction l with
  | nil =>
    intro lo hlo _ _
    simp only [insertCell]
    rw [cellsCanonical_cons]
    exact ⟨hlo, ha, hv, rfl⟩
  | cons c rest ih =>
    intro lo hlo hne h
    rw [cellsCanonical_cons] at h
    have hc : c.1 ≠ a := hne c (by simp)
    by_cases hlt : a < c.1
    · simp only [insertCell, hlt, if_true]
      rw [cellsCanonical_cons, cellsCanonical_cons]
      exact ⟨hlo, ha, hv, hlt, h.2⟩
    · simp only [insertCell, hlt, if_false]
      rw [cellsCanonical_cons]
      exact ⟨h.1, h.2.1, h.2.2.1, ih (by omega) (fun d hd => hne d (by simp [hd])) h.2.2.2⟩

/-- A write inside the memory keeps the canonical form. -/
theorem Memory.set_wf {m : Memory} {a : Nat} (v : Word) (ha : a < m.len) (h : m.wf = true) :
    (m.set a v).wf = true := by
  have he := cellsCanonical_eraseCell (a := a) h
  by_cases hv : v = Memory.unlisted
  · simpa [Memory.wf, Memory.set, hv] using he
  · simpa [Memory.wf, Memory.set, hv] using
      cellsCanonical_insertCell ha hv (Nat.zero_le a) fst_ne_of_mem_eraseCell he

theorem cellsCanonical_grow {len len' : Nat} {l : List (Nat × Word)} (hlen : len ≤ len') :
    ∀ {lo}, cellsCanonical len lo l = true → cellsCanonical len' lo l = true := by
  induction l with
  | nil => intro _ _; rfl
  | cons c rest ih =>
    intro lo h
    rw [cellsCanonical_cons] at h ⊢
    exact ⟨h.1, by omega, h.2.2.1, ih h.2.2.2⟩

/-- Loading cells from outside keeps the canonical form. -/
theorem Memory.place_wf {vs : List Word} : ∀ {m : Memory} {a : Nat}, m.wf = true → (m.place a vs).wf = true := by
  induction vs with
  | nil => intro _ _ h; exact h
  | cons v rest ih =>
    intro m a h
    simp only [Memory.place]
    exact ih (Memory.set_wf v (by simp) (cellsCanonical_grow (Nat.le_max_left _ _) h))

theorem cellAt_of_lt {len : Nat} {l : List (Nat × Word)} :
    ∀ {lo a}, cellsCanonical len lo l = true → a < lo → cellAt l a = Memory.unlisted := by
  induction l with
  | nil => intro _ _ _ _; rfl
  | cons c rest ih =>
    intro lo a h ha
    rw [cellsCanonical_cons] at h
    have hne : c.1 ≠ a := by omega
    simp [cellAt, hne, ih h.2.2.2 (by omega : a < c.1 + 1)]

theorem cellAt_of_le {len : Nat} {l : List (Nat × Word)} :
    ∀ {lo a}, cellsCanonical len lo l = true → len ≤ a → cellAt l a = Memory.unlisted := by
  induction l with
  | nil => intro _ _ _ _; rfl
  | cons c rest ih =>
    intro lo a h ha
    rw [cellsCanonical_cons] at h
    have hne : c.1 ≠ a := by omega
    simp [cellAt, hne, ih h.2.2.2 ha]

theorem cells_eq_of_cellAt {len : Nat} {l : List (Nat × Word)} :
    ∀ {lo l'}, cellsCanonical len lo l = true → cellsCanonical len lo l' = true →
      (∀ a, cellAt l a = cellAt l' a) → l = l' := by
  induction l with
  | nil =>
    intro lo l' _ h' heq
    cases l' with
    | nil => rfl
    | cons c rest =>
      rw [cellsCanonical_cons] at h'
      exact absurd (by simpa [cellAt] using (heq c.1).symm) h'.2.2.1
  | cons c rest ih =>
    intro lo l' h h' heq
    rw [cellsCanonical_cons] at h
    cases l' with
    | nil => exact absurd (by simpa [cellAt] using heq c.1) h.2.2.1
    | cons c' rest' =>
      rw [cellsCanonical_cons] at h'
      obtain ⟨a, v⟩ := c
      obtain ⟨a', v'⟩ := c'
      dsimp only at h h'
      have haa : a = a' := by
        rcases Nat.lt_trichotomy a a' with hlt | rfl | hlt
        · have := heq a
          rw [cellAt_of_lt (l := (a', v') :: rest') (lo := a') (len := len) (cellsCanonical_cons.2 ⟨le_refl _, h'.2⟩) hlt] at this
          exact absurd (by simpa [cellAt] using this) h.2.2.1
        · rfl
        · have := heq a'
          rw [cellAt_of_lt (l := (a, v) :: rest) (lo := a) (len := len) (cellsCanonical_cons.2 ⟨le_refl _, h.2⟩) hlt] at this
          exact absurd (by simpa [cellAt] using this.symm) h'.2.2.1
      subst haa
      have hvv : v = v' := by simpa [cellAt] using heq a
      subst hvv
      have hrest : rest = rest' := by
        refine ih h.2.2.2 h'.2.2.2 fun b => ?_
        by_cases hb : a = b
        · subst hb
          rw [cellAt_of_lt h.2.2.2 (Nat.lt_succ_self _), cellAt_of_lt h'.2.2.2 (Nat.lt_succ_self _)]
        · simpa [cellAt, hb] using heq b
      rw [hrest]

/-- The canonical form is one: memories of one length with the same cells are the same data. -/
theorem Memory.eq_of_get {m m' : Memory} (h : m.wf = true) (h' : m'.wf = true) (hlen : m.len = m'.len)
    (heq : ∀ a, a < m.len → m.get a = m'.get a) : m = m' := by
  obtain ⟨len, l⟩ := m
  obtain ⟨len', l'⟩ := m'
  dsimp only at hlen
  subst hlen
  congr 1
  refine cells_eq_of_cellAt h h' fun a => ?_
  by_cases ha : a < len
  · exact heq a ha
  · rw [cellAt_of_le h (Nat.le_of_not_lt ha), cellAt_of_le h' (Nat.le_of_not_lt ha)]

/-! ### Memory at construction (10_state.md R14) -/

@[simp] theorem Memory.ofProgram_len (p : List Word) : (Memory.ofProgram p).len = p.length := rfl

theorem cellAt_listCells_of_lt {vs : List Word} : ∀ {i a}, a < i → cellAt (listCells i vs) a = Memory.unlisted := by
  induction vs with
  | nil => intro _ _ _; rfl
  | cons v rest ih =>
    intro i a ha
    by_cases hv : v = Memory.unlisted
    · simpa [listCells, hv] using ih (by omega : a < i + 1)
    · have hne : i ≠ a := by omega
      simp [listCells, hv, cellAt, hne, ih (by omega : a < i + 1)]

theorem cellAt_listCells {vs : List Word} :
    ∀ {i k}, (h : k < vs.length) → cellAt (listCells i vs) (i + k) = vs[k] := by
  induction vs with
  | nil => intro _ _ h; simp at h
  | cons v rest ih =>
    intro i k h
    by_cases hv : v = Memory.unlisted
    · cases k with
      | zero => simp [listCells, hv, cellAt_listCells_of_lt]
      | succ k =>
        have := ih (i := i + 1) (k := k) (by simpa using h)
        simpa [listCells, hv, Nat.add_assoc, Nat.add_comm 1 k] using this
    · cases k with
      | zero => simp [listCells, hv, cellAt]
      | succ k =>
        have := ih (i := i + 1) (k := k) (by simpa using h)
        simpa [listCells, hv, cellAt, Nat.add_assoc, Nat.add_comm 1 k] using this

theorem Memory.get_ofProgram {p : List Word} {k : Nat} (h : k < p.length) : (Memory.ofProgram p).get k = p[k] := by
  simpa [Memory.get, Memory.ofProgram] using cellAt_listCells (i := 0) h

theorem cellsCanonical_listCells {len : Nat} {vs : List Word} :
    ∀ {i}, i + vs.length ≤ len → cellsCanonical len i (listCells i vs) = true := by
  induction vs with
  | nil => intro _ _; rfl
  | cons v rest ih =>
    intro i h
    have hrest := ih (i := i + 1) (by simp only [List.length_cons] at h; omega)
    by_cases hv : v = Memory.unlisted
    · simpa [listCells, hv] using cellsCanonical_mono (Nat.le_succ i) hrest
    · simp only [listCells, hv, if_false]
      rw [cellsCanonical_cons]
      exact ⟨le_refl _, by simp only [List.length_cons] at h; omega, hv, hrest⟩

theorem Memory.ofProgram_wf (p : List Word) : (Memory.ofProgram p).wf = true :=
  cellsCanonical_listCells (by simp [Memory.ofProgram])

/-- A load from outside stores its cells one after the other. -/
theorem Memory.get_place_of_lt {vs : List Word} : ∀ {m : Memory} {a b : Nat}, b < a → (m.place a vs).get b = m.get b := by
  induction vs with
  | nil => intro _ _ _ _; rfl
  | cons v rest ih =>
    intro m a b h
    simp only [Memory.place]
    rw [ih (by omega : b < a + 1), Memory.get_set_ne _ _ (by omega : b ≠ a)]
    rfl

theorem Memory.get_place {vs : List Word} :
    ∀ {m : Memory} {a k : Nat}, (h : k < vs.length) → (m.place a vs).get (a + k) = vs[k] := by
  induction vs with
  | nil => intro _ _ _ h; simp at h
  | cons v rest ih =>
    intro m a k h
    simp only [Memory.place]
    cases k with
    | zero =>
      rw [Nat.add_zero a, Memory.get_place_of_lt (by omega : a < a + 1), Memory.get_set_same]
      rfl
    | succ k =>
      have := ih (m := { m with len := max m.len (a + 1) }.set a v) (a := a + 1) (k := k) (by simpa using h)
      simpa [Nat.add_assoc, Nat.add_comm 1 k] using this

end Sys2Proof.Machine
end

