-- ==== Sys2Proof/Laws/Ops.lean ====
section
/-! SUPPORT. One lemma per shared operation that says everything it can answer. Proofs cite these and do not unfold
the operations. -/

namespace Sys2Proof.Machine

/-! ### Checked accesses and the fetch -/

theorem State.load_eq_ok_iff {s : State} {a : Int} {v : Word} : s.load a = .ok v ↔ CellHolds s a v := by
  unfold State.load CellHolds
  split
  · rename_i h
    exact ⟨fun e => ⟨h, Except.ok.inj e⟩, fun e => congrArg _ e.2⟩
  · rename_i h
    exact ⟨fun e => (nomatch e), fun e => absurd e.1 h⟩

theorem State.load_eq_error_iff {s : State} {a : Int} {f : Fault} :
    s.load a = .error f ↔ ¬ s.mem.InBounds a ∧ f = .outOfBounds a := by
  unfold State.load
  split <;> simp [*, eq_comm]

theorem State.checkAddress_eq_ok_iff {s : State} {a : Int} {d : Nat} :
    s.checkAddress a = .ok d ↔ s.mem.InBounds a ∧ d = a.toNat := by
  unfold State.checkAddress
  split
  · rename_i h
    exact ⟨fun e => ⟨h, (Except.ok.inj e).symm⟩, fun e => congrArg _ e.2.symm⟩
  · rename_i h
    exact ⟨fun e => (nomatch e), fun e => absurd e.1 h⟩

theorem State.checkAddress_eq_error_iff {s : State} {a : Int} {f : Fault} :
    s.checkAddress a = .error f ↔ ¬ s.mem.InBounds a ∧ f = .outOfBounds a := by
  unfold State.checkAddress
  split <;> simp [*, eq_comm]

/-- An address that has been checked is inside the memory. -/
theorem DestinationIs.lt_len {s : State} {k d : Nat} (h : DestinationIs s k d) : d < s.mem.len := by
  obtain ⟨p, -, hp, rfl⟩ := h
  unfold Memory.InBounds at hp
  omega

/-- An operand cell that exists lies at or before the last cell. -/
theorem OperandIs.lt_len {s : State} {k : Nat} {p : Word} (h : OperandIs s k p) : s.ip + k < s.mem.len := by
  have hb := h.1
  unfold Memory.InBounds at hb
  omega

theorem State.fetch_eq_ok_iff {s : State} {i : Instr} : s.fetch = .ok i ↔ Fetches s i := by
  unfold State.fetch Fetches
  constructor
  · intro h
    split at h
    · simp at h
    · rename_i w hw
      split at h
      · simp at h
      · rename_i j hj
        cases h
        exact ⟨w, State.load_eq_ok_iff.1 hw, hj⟩
  · rintro ⟨w, hw, hi⟩
    rw [State.load_eq_ok_iff.2 hw]
    simp [hi]

theorem State.fetch_eq_error_iff {s : State} {f : Fault} :
    s.fetch = .error f ↔
      (¬ s.mem.InBounds s.ip ∧ f = .outOfBounds s.ip) ∨
      ∃ w d, CellHolds s s.ip w ∧ decode w = .error d ∧ f = Fault.ofDecode d := by
  unfold State.fetch
  constructor
  · intro h
    split at h
    · rename_i g hg
      cases h
      exact .inl (State.load_eq_error_iff.1 hg)
    · rename_i w hw
      split at h
      · rename_i d hd
        cases h
        exact .inr ⟨w, d, State.load_eq_ok_iff.1 hw, hd, rfl⟩
      · simp at h
  · rintro (h | ⟨w, d, hw, hd, rfl⟩)
    · rw [State.load_eq_error_iff.2 h]
    · rw [State.load_eq_ok_iff.2 hw]
      simp [hd]

/-! ### Operands -/

theorem State.operandCell_eq_ok_iff {s : State} {k : Nat} {p : Word} : s.operandCell k = .ok p ↔ OperandIs s k p :=
  State.load_eq_ok_iff

theorem State.operandCell_eq_error_iff {s : State} {k : Nat} {f : Fault} :
    s.operandCell k = .error f ↔ OperandCellFault s k f :=
  State.load_eq_error_iff

theorem State.source_eq_ok_iff {s : State} {k : Nat} {m : Mode} {v : Word} :
    s.source k m = .ok v ↔ SourceIs s k m v := by
  unfold State.source
  constructor
  · intro h
    split at h
    · simp at h
    · rename_i p hp
      rw [State.operandCell_eq_ok_iff] at hp
      cases m with
      | position => exact ⟨p, hp, State.load_eq_ok_iff.1 h⟩
      | immediate => cases h; exact hp
  · intro h
    cases m with
    | position =>
      obtain ⟨p, hp, hv⟩ := h
      rw [State.operandCell_eq_ok_iff.2 hp]
      exact State.load_eq_ok_iff.2 hv
    | immediate =>
      rw [State.operandCell_eq_ok_iff.2 h]
      rfl

theorem State.source_eq_error_iff {s : State} {k : Nat} {m : Mode} {f : Fault} :
    s.source k m = .error f ↔ SourceFault s k m f := by
  unfold State.source SourceFault
  constructor
  · intro h
    split at h
    · rename_i g hg
      cases h
      exact .inl (State.operandCell_eq_error_iff.1 hg)
    · rename_i p hp
      rw [State.operandCell_eq_ok_iff] at hp
      cases m with
      | position =>
        obtain ⟨hb, hf⟩ := State.load_eq_error_iff.1 h
        exact .inr ⟨rfl, p, hp, hb, hf⟩
      | immediate => simp [State.resolveSource] at h
  · rintro (h | ⟨rfl, p, hp, hb, hf⟩)
    · rw [State.operandCell_eq_error_iff.2 h]
    · rw [State.operandCell_eq_ok_iff.2 hp]
      exact State.load_eq_error_iff.2 ⟨hb, hf⟩

theorem State.destination_eq_ok_iff {s : State} {k d : Nat} : s.destination k = .ok d ↔ DestinationIs s k d := by
  unfold State.destination DestinationIs
  constructor
  · intro h
    split at h
    · simp at h
    · rename_i p hp
      exact ⟨p, State.operandCell_eq_ok_iff.1 hp, State.checkAddress_eq_ok_iff.1 h⟩
  · rintro ⟨p, hp, h⟩
    rw [State.operandCell_eq_ok_iff.2 hp]
    exact State.checkAddress_eq_ok_iff.2 h

theorem State.destination_eq_error_iff {s : State} {k : Nat} {f : Fault} :
    s.destination k = .error f ↔ DestinationFault s k f := by
  unfold State.destination DestinationFault
  constructor
  · intro h
    split at h
    · rename_i g hg
      cases h
      exact .inl (State.operandCell_eq_error_iff.1 hg)
    · rename_i p hp
      exact .inr ⟨p, State.operandCell_eq_ok_iff.1 hp, State.checkAddress_eq_error_iff.1 h⟩
  · rintro (h | ⟨p, hp, h⟩)
    · rw [State.operandCell_eq_error_iff.2 h]
    · rw [State.operandCell_eq_ok_iff.2 hp]
      exact State.checkAddress_eq_error_iff.2 h

theorem State.arithOperands_eq_ok_iff {s : State} {a b c : Mode} {x : ArithOperands} :
    s.arithOperands a b c = .ok x ↔
      c = .position ∧ SourceIs s 1 a x.val1 ∧ SourceIs s 2 b x.val2 ∧ DestinationIs s 3 x.addr := by
  simp only [← State.source_eq_ok_iff, ← State.destination_eq_ok_iff]
  obtain ⟨v1, v2, d⟩ := x
  unfold State.arithOperands
  cases c
  · cases h1 : s.source 1 a <;> cases h2 : s.source 2 b <;> cases h3 : s.destination 3 <;>
      simp [requirePosition]
  · simp [requirePosition]

theorem State.arithOperands_eq_error_iff {s : State} {a b c : Mode} {f : Fault} :
    s.arithOperands a b c = .error f ↔
      (c = .immediate ∧ f = .immediateDestination 3) ∨
      (c = .position ∧
        (SourceFault s 1 a f ∨
          ∃ v1, SourceIs s 1 a v1 ∧
            (SourceFault s 2 b f ∨ ∃ v2, SourceIs s 2 b v2 ∧ DestinationFault s 3 f))) := by
  simp only [← State.source_eq_ok_iff, ← State.source_eq_error_iff, ← State.destination_eq_error_iff]
  unfold State.arithOperands
  cases c
  · cases h1 : s.source 1 a <;> cases h2 : s.source 2 b <;> cases h3 : s.destination 3 <;>
      simp [requirePosition]
  · simp [requirePosition, eq_comm]

theorem State.inputOperand_eq_ok_iff {s : State} {a : Mode} {d : Nat} :
    s.inputOperand a = .ok d ↔ a = .position ∧ DestinationIs s 1 d := by
  rw [← State.destination_eq_ok_iff]
  cases a <;> simp [State.inputOperand, requirePosition]

theorem State.inputOperand_eq_error_iff {s : State} {a : Mode} {f : Fault} :
    s.inputOperand a = .error f ↔
      (a = .immediate ∧ f = .immediateDestination 1) ∨ (a = .position ∧ DestinationFault s 1 f) := by
  rw [← State.destination_eq_error_iff]
  cases a <;> simp [State.inputOperand, requirePosition, eq_comm]

/-! ### Results -/

/-- An integer that fits a cell is the value of its cell. -/
theorem toInt_ofInt_of_fits {r : Int} (h : FitsCell r) : (BitVec.ofInt 32 r).toInt = r := by
  unfold FitsCell minCell maxCell at h
  rw [BitVec.toInt_ofInt]
  exact Int.bmod_eq_of_le (by norm_num; omega) (by norm_num; omega)

theorem wrapCell_fits (r : Int) : FitsCell (wrapCell r) := by
  unfold FitsCell minCell maxCell wrapCell
  omega

theorem fit_of_fits {policy : ArithOverflow} {op : Nat} {r : Int} (h : FitsCell r) :
    fit policy op r = .ok (BitVec.ofInt 32 r) := by
  simp [fit, h]

theorem fit_fault {op : Nat} {r : Int} (h : ¬ FitsCell r) : fit .fault op r = .error (.arithmeticOverflow op) := by
  simp [fit, h]

theorem fit_wrap {op : Nat} {r : Int} (h : ¬ FitsCell r) : fit .wrap op r = .ok (BitVec.ofInt 32 (wrapCell r)) := by
  simp [fit, h]

theorem fit_eq_error_iff {policy : ArithOverflow} {op : Nat} {r : Int} {f : Fault} :
    fit policy op r = .error f ↔ ¬ FitsCell r ∧ policy = .fault ∧ f = .arithmeticOverflow op := by
  by_cases h : FitsCell r
  · simp [fit_of_fits h, h]
  · cases policy
    · simp [fit_fault h, h, eq_comm]
    · simp [fit_wrap h]

/-! ### What each meaning can answer -/

/-- Everything ADD and MUL can do. -/
theorem arithmetic_eq_next_iff {op : Nat} {g : Int → Int → Int} {a b c : Mode} {s t : State} :
    arithmetic op g a b c s = .next t ↔
      (∃ f, s.arithOperands a b c = .error f ∧ t = s.raise f) ∨
      (∃ x f, s.arithOperands a b c = .ok x ∧ fit s.config.arithOverflow op (g x.val1.toInt x.val2.toInt) = .error f ∧
        t = s.raise f) ∨
      ∃ x r, s.arithOperands a b c = .ok x ∧ fit s.config.arithOverflow op (g x.val1.toInt x.val2.toInt) = .ok r ∧
        t = (s.store x.addr r).advance 4 := by
  unfold arithmetic
  cases hx : s.arithOperands a b c with
  | error f => simp [orRaise, eq_comm]
  | ok x =>
    cases hr : fit s.config.arithOverflow op (g x.val1.toInt x.val2.toInt) <;> simp [orRaise, hr, eq_comm]

/-- Everything IN can do. -/
theorem execInp_eq_next_iff {a : Mode} {s t : State} :
    execInp a s = .next t ↔
      (∃ f, s.inputOperand a = .error f ∧ t = s.raise f) ∨
      (∃ d, s.inputOperand a = .ok d ∧ s.nextAnswer = none ∧ t = s.wait) ∨
      ∃ d answer, s.inputOperand a = .ok d ∧ s.nextAnswer = some answer ∧ t = receive d answer s := by
  unfold execInp
  cases hd : s.inputOperand a with
  | error f => simp [orRaise, eq_comm]
  | ok d => cases hn : s.nextAnswer <;> simp [orRaise, eq_comm]

/-- Everything OUT can do. -/
theorem execOut_eq_next_iff {a : Mode} {s t : State} :
    execOut a s = .next t ↔
      (∃ f, s.source 1 a = .error f ∧ t = s.raise f) ∨
      ∃ v, s.source 1 a = .ok v ∧ t = (s.emit v).advance 2 := by
  unfold execOut
  cases s.source 1 a <;> simp [orRaise, eq_comm]

/-- A pull is unanswered exactly past the answers of an interactive source (42_io.md R86). -/
theorem State.nextAnswer_eq_none_iff {s : State} :
    s.nextAnswer = none ↔ s.input.interactive = true ∧ s.input.answers.length ≤ s.pulled := by
  unfold State.nextAnswer InputSource.answerAt
  cases h : s.input.answers[s.pulled]? with
  | some x =>
    have hlt := (List.getElem?_eq_some_iff.1 h).1
    simp only [reduceCtorEq, false_iff, not_and, not_le]
    exact fun _ => hlt
  | none =>
    have hle := List.getElem?_eq_none_iff.1 h
    cases s.input.interactive <;> simp [hle]

/-- An IN waits exactly while a step is in progress at an unanswered pull. -/
theorem State.waitsAtPull_eq_true_iff {s : State} :
    s.waitsAtPull = true ↔
      s.inStep = true ∧ s.input.interactive = true ∧ s.input.answers.length ≤ s.pulled := by
  simp [State.waitsAtPull, State.nextAnswer_eq_none_iff]

/-- Everything an answer from the host can do. -/
theorem answerPull_eq_ok_iff {answer : InputAnswer} {s t : State} :
    answerPull answer s = .ok t ↔ s.waitsAtPull = true ∧ t = s.receiveAnswer answer := by
  unfold answerPull
  split <;> simp [*, eq_comm]

/-- Everything a host read can answer between steps. -/
theorem State.betweenSteps_of_not_inStep {α : Type} {s : State} {read : Except HostError α} (h : s.inStep = false) :
    s.betweenSteps read = read := by
  simp [State.betweenSteps, h]

/-- Everything a host read can answer inside a step. -/
theorem State.betweenSteps_of_inStep {α : Type} {s : State} {read : Except HostError α} (h : s.inStep = true) :
    s.betweenSteps read = .error .stepInProgress := by
  simp [State.betweenSteps, h]

/-- The answer to an interactive source's pull is one of its listed answers. -/
theorem InputSource.answerAt_lt {src : InputSource} {k : Nat} {answer : InputAnswer} (hi : src.interactive = true)
    (h : src.answerAt k = some answer) : k < src.answers.length := by
  unfold InputSource.answerAt at h
  split at h
  · rename_i x hx
    exact (List.getElem?_eq_some_iff.1 hx).1
  · simp [hi] at h

/-- Everything a step can do. -/
theorem step_eq_next_iff {s t : State} :
    step s = .next t ↔
      (s.run ≠ .running ∧ t = s) ∨
      (s.run = .running ∧ ∃ f, s.start.fetch = .error f ∧ t = s.start.raise f) ∨
      (s.run = .running ∧ ∃ i, s.start.fetch = .ok i ∧ exec i s.start = .next t) := by
  unfold step
  cases hr : s.run with
  | running => cases s.start.fetch <;> simp [orRaise, eq_comm]
  | halted => simp [eq_comm]
  | faulted => simp [eq_comm]

end Sys2Proof.Machine
end

