-- ==== Sys2Proof/Laws/PerInstr.lean ====
section
/-! SUPPORT. Facts about every instruction as syntax, one lemma per constructor. -/

namespace Sys2Proof.Laws

/-- An instruction carries exactly `width - 1` modes (30_encoding.md R54, R64). -/
def ModeCount.Statement (i : Instr) : Prop := i.modes.length + 1 = i.width

theorem ModeCount.add (a b c : Mode) : ModeCount.Statement (.add a b c) := rfl
theorem ModeCount.mul (a b c : Mode) : ModeCount.Statement (.mul a b c) := rfl
theorem ModeCount.inp (a : Mode) : ModeCount.Statement (.inp a) := rfl
theorem ModeCount.out (a : Mode) : ModeCount.Statement (.out a) := rfl
theorem ModeCount.hlt : ModeCount.Statement .hlt := rfl

/-- The canonical word is non-negative and its two low digits are the opcode (30_encoding.md R46, R50). -/
def OpcodeDigits.Statement (i : Instr) : Prop :=
  0 ≤ (encode i).toInt ∧ (encode i).toInt % 100 = i.opcode

theorem OpcodeDigits.add (a b c : Mode) : OpcodeDigits.Statement (.add a b c) := by
  cases a <;> cases b <;> cases c <;> exact ⟨by decide, by decide⟩
theorem OpcodeDigits.mul (a b c : Mode) : OpcodeDigits.Statement (.mul a b c) := by
  cases a <;> cases b <;> cases c <;> exact ⟨by decide, by decide⟩
theorem OpcodeDigits.inp (a : Mode) : OpcodeDigits.Statement (.inp a) := by
  cases a <;> exact ⟨by decide, by decide⟩
theorem OpcodeDigits.out (a : Mode) : OpcodeDigits.Statement (.out a) := by
  cases a <;> exact ⟨by decide, by decide⟩
theorem OpcodeDigits.hlt : OpcodeDigits.Statement .hlt := ⟨by decide, by decide⟩

end Sys2Proof.Laws
end

