-- ==== Sys2Proof/Tests/Slice0.lean ====
section
/-! SUPPORT. Tests of single steps with results from spec/95_test_vectors.md, the WellFormed smoke, and a witness for
the hypotheses of every statement. -/

namespace Sys2Proof.Machine.Tests

/-- An instance built from a program, with the default parameters and an empty input queue. -/
def prog (cells : List Int) : State :=
  construct (cells.map (BitVec.ofInt 32)) { answers := [], interactive := false } Config.standard

/-- The same with an input queue. -/
def progIn (cells : List Int) (answers : List InputAnswer) : State :=
  construct (cells.map (BitVec.ofInt 32)) { answers := answers, interactive := false } Config.standard

/-- The same with an interactive source that has answered nothing yet. -/
def progWaiting (cells : List Int) : State :=
  construct (cells.map (BitVec.ofInt 32)) { answers := [], interactive := true } Config.standard

/-- The same with `ARITH_OVERFLOW = wrap`. -/
def progWrap (cells : List Int) : State :=
  construct (cells.map (BitVec.ofInt 32)) { answers := [], interactive := false } { arithOverflow := .wrap }

/-! ### WellFormed smoke: an ill-formed term for each check -/

theorem test_wf_refuses_add_immediate_destination : (Instr.add .position .position .immediate).wf = false := by decide
theorem test_wf_refuses_mul_immediate_destination : (Instr.mul .immediate .position .immediate).wf = false := by decide
theorem test_wf_refuses_inp_immediate_destination : (Instr.inp .immediate).wf = false := by decide

/-! ### Decoding: words written digit by digit from 30_encoding.md R46 (`C B A o o`) -/

theorem test_decode_add : decode 1001 = .ok (.add .position .immediate .position) := by decide
theorem test_decode_mul : decode 1002 = .ok (.mul .position .immediate .position) := by decide
theorem test_decode_inp : decode 3 = .ok (.inp .position) := by decide
theorem test_decode_out : decode 104 = .ok (.out .immediate) := by decide
theorem test_decode_hlt : decode 2147483599 = .ok .hlt := by decide
theorem test_decode_reports_first_fault : decode 10201 = .error (.unknownMode 2) := by decide
theorem test_decode_minimum_word : decode (BitVec.ofInt 32 (-2147483648)) = .error (.unknownOpcode (-48)) := by decide

/-- Each row's canonical word, fetched and decoded as the host lays it out (opcode_table.json). -/
theorem test_table_words :
    decodeTableWord 32 101 = some (.add .immediate .position .position) ∧
    decodeTableWord 128 1002 = some (.mul .position .immediate .position) ∧
    decodeTableWord 16 3 = some (.inp .position) ∧ decodeTableWord 64 104 = some (.out .immediate) ∧
    decodeTableWord 8 99 = some .hlt ∧ decodeTableWord 32 5 = none := by decide

/-- The second cell lies in bits 63..32 (log entry 16): `104, 7` emits 7 as the first instruction after reset. -/
theorem test_fetch_word_runs_first :
    (stepState (State.reset.withFetchWord 64 (104 + 7 * 2 ^ 32))).out = [7] ∧
    (stepState (State.reset.withFetchWord 32 99)).run = .halted := by decide

/-- The example of 30_encoding.md R62: `MUL [4], #3, [4]` is `1002,4,3,4`. -/
theorem test_assemble : assemble (.mul .position .immediate .position) [4, 3, 4] = [1002, 4, 3, 4] := by decide

/-! ### One step (95_test_vectors.md §2) -/

theorem test_add_same_cell : (stepState (prog [1, 0, 0, 0, 99])).mem = (prog [2, 0, 0, 0, 99]).mem := by decide
theorem test_add_overflow :
    (stepState (prog [1101, 2147483647, 1, 5, 99, 0])).fault = some (.arithmeticOverflow 1) := by decide
theorem test_mul_negative :
    (stepState (prog [1102, -3, 5, 5, 99, 0])).mem = (prog [1102, -3, 5, 5, 99, -15]).mem := by decide
theorem test_mul_wraps :
    (stepState (progWrap [1102, 46341, 46341, 5, 99, 0])).mem =
      (prog [1102, 46341, 46341, 5, 99, -2147479015]).mem := by decide +kernel
theorem test_inp_own_word : (stepState (progIn [3, 0, 99] [.value 1101])).mem = (prog [1101, 0, 99]).mem := by decide
theorem test_inp_bad_address_pulls_nothing :
    (stepState (progIn [3, 7, 99] [.value 42])).fault = some (.outOfBounds 7) ∧
    (stepState (progIn [3, 7, 99] [.value 42])).pulled = 0 := by decide
theorem test_out_own_word : (stepState (prog [4, 0, 99])).out = [4] := by decide
theorem test_out_negative_literal : (stepState (prog [104, -5, 99])).out = [BitVec.ofInt 32 (-5)] := by decide
theorem test_hlt_keeps_ip : (stepState (prog [99, 5])).run = .halted ∧ (stepState (prog [99, 5])).ip = 0 := by decide
theorem test_operand_fault_before_next_cell : (stepState (prog [1, 7])).fault = some (.outOfBounds 7) := by decide
theorem test_negative_address : (stepState (prog [1, -1, 0, 0, 99])).fault = some (.outOfBounds (-1)) := by decide
theorem test_fetch_past_end : (stepState State.reset).fault = some (.outOfBounds 0) := by decide

/-! ### Host operations (95_test_vectors.md §2.8) -/

theorem test_poke_out_of_range : poke 1 7 (prog [99]) = .error (.outOfBounds 1) := by rfl
theorem test_poke_after_start : poke 0 7 (stepState (prog [99])) = .error .alreadyStarted := by rfl
/-- R119: no answer before the IN has begun its step; one while it waits; no second one. -/
theorem test_answer_only_while_waiting :
    answerPull (.value 7) (progWaiting [3, 0]) = .error .noPullWaits ∧
    answerPull (.value 7) (stepState (progWaiting [3, 0])) =
      .ok ((stepState (progWaiting [3, 0])).receiveAnswer (.value 7)) ∧
    answerPull (.value 8) ((stepState (progWaiting [3, 0])).receiveAnswer (.value 7)) = .error .noPullWaits :=
  ⟨rfl, rfl, rfl⟩
theorem test_peek_between_steps :
    peek 0 (progWaiting [3, 0]) = .ok 3 ∧ peek 0 (stepState (progWaiting [3, 0])) = .error .stepInProgress :=
  ⟨rfl, rfl⟩
theorem test_registers_read_between_steps :
    readIp (stepState (prog [104, 7, 99])) = .ok 2 ∧ readOut (stepState (prog [104, 7, 99])) = .ok [7] ∧
    readRun (stepState (prog [99])) = .ok .halted ∧ readFault (stepState (prog [5])) = .ok (1, 5) := ⟨rfl, rfl, rfl, rfl⟩
theorem test_no_register_read_while_waiting :
    readIp (stepState (progWaiting [3, 0])) = .error .stepInProgress ∧
    readRun (stepState (progWaiting [3, 0])) = .error .stepInProgress ∧
    readFault (stepState (progWaiting [3, 0])) = .error .stepInProgress ∧
    readOut (stepState (progWaiting [3, 0])) = .error .stepInProgress := ⟨rfl, rfl, rfl, rfl⟩
theorem test_answer_outside_int32 : InputAnswer.ofInt 2147483648 = .malformed := by decide
theorem test_run_to_completion :
    (runToCompletion 5 (prog [104, 1, 104, 2, 99])).1 = .ok ∧
    (runToCompletion 5 (prog [104, 1, 104, 2, 99])).2.out = [1, 2] ∧
    (runToCompletion 1 (prog [104, 1, 104, 2, 99])).1 = .aborted := by decide

/-! ### Witnesses: states and operands that meet the hypotheses of the statements -/

/-- A program cell holds its value. -/
theorem fetches_of {s : State} {w : Word} {i : Instr} (hb : s.mem.InBounds s.ip) (hw : s.mem.get s.ip = w)
    (hd : decode w = .ok i) : Fetches s i := ⟨w, ⟨hb, by simpa using hw⟩, hd⟩

theorem witness_DecodeInvertsEncode :
    (Instr.mul .position .immediate .position).wf = true ∧
    decode 100001 = .ok (.add .position .position .position) := by decide

theorem witness_DecodeFollowsDigitLoop : decode 1101 = .ok (.add .immediate .immediate .position) := by decide

theorem witness_IllegalWordsExactly :
    (prog [103, 0]).run = .running ∧ CellHolds (prog [103, 0]) (prog [103, 0]).ip 103 ∧
    decode 103 = .error (.immediateDestination 1) :=
  ⟨rfl, ⟨by decide, by decide⟩, by decide⟩

theorem witness_WidthIsAFunctionOfTheOpcode :
    (Instr.add .immediate .position .position).opcode = (Instr.add .position .immediate .position).opcode ∧
    (Instr.mul .position .position .position).opcode = 2 ∧ (Instr.inp .position).opcode = 3 ∧
    (Instr.out .position).opcode = 4 ∧ Instr.hlt.opcode = 99 := by decide

theorem witness_StepRunsDecodedInstruction :
    (prog [104, 1]).run = .running ∧ Fetches (prog [104, 1]) (.out .immediate) :=
  ⟨rfl, fetches_of (w := 104) (by decide) (by decide) (by decide)⟩

/-- A source that is not interactive never leaves a pull unanswered. -/
theorem not_pullUnanswered_of_queue {s : State} (h : s.input.interactive = false) : ¬ PullUnanswered s :=
  fun hp => absurd hp.2.2.2.1 (by simp [h])

theorem witness_StepFollowsTheCycle : ¬ PullUnanswered (prog [1, 0, 0, 0]) := not_pullUnanswered_of_queue rfl

theorem witness_TerminalStateIsInert : (stepState (prog [99])).run ≠ .running ∧ (stepState (prog [5])).run ≠ .running := by
  decide

theorem witness_FetchPastTheEndFaults : State.reset.run = .running ∧ State.reset.mem.len ≤ State.reset.ip := by decide

theorem witness_UnknownOpcodeFaults :
    (prog [5]).run = .running ∧ CellHolds (prog [5]) (prog [5]).ip 5 ∧
    (5 : Word).toInt.tmod 100 ∉ ({1, 2, 3, 4, 99} : Set Int) :=
  ⟨rfl, ⟨by decide, by decide⟩, by rw [show (5 : Word).toInt.tmod 100 = 5 by decide]; simp⟩

theorem witness_DecodeFaultEndsTheStep :
    (prog [201]).run = .running ∧ CellHolds (prog [201]) (prog [201]).ip 201 ∧ decode 201 = .error (.unknownMode 2) :=
  ⟨rfl, ⟨by decide, by decide⟩, by decide⟩

/-- `1001,0,5,4,9`: a Position and an Immediate source, and the last cell as destination. -/
theorem witness_AddStoresExactSum :
    SourceIs (prog [1001, 0, 5, 4, 9]) 1 .position 1001 ∧ SourceIs (prog [1001, 0, 5, 4, 9]) 2 .immediate 5 ∧
    DestinationIs (prog [1001, 0, 5, 4, 9]) 3 4 ∧ FitsCell ((1001 : Word).toInt + (5 : Word).toInt) :=
  ⟨⟨0, ⟨by decide, by decide⟩, by decide, by decide⟩, ⟨by decide, by decide⟩,
    ⟨4, ⟨by decide, by decide⟩, by decide, by decide⟩, by decide⟩

theorem witness_MulStoresExactProduct :
    SourceIs (prog [1102, 46340, 46340, 0]) 1 .immediate 46340 ∧
    SourceIs (prog [1102, 46340, 46340, 0]) 2 .immediate 46340 ∧
    DestinationIs (prog [1102, 46340, 46340, 0]) 3 0 ∧ FitsCell ((46340 : Word).toInt * (46340 : Word).toInt) :=
  ⟨⟨by decide, by decide⟩, ⟨by decide, by decide⟩, ⟨0, ⟨by decide, by decide⟩, by decide, by decide⟩, by decide⟩

/-- `2147483647` twice: both the sum and the product are out of range. -/
theorem witness_OverflowFaultsWhenSoConfigured :
    (prog [1101, 2147483647, 2147483647, 0]).config.arithOverflow = .fault ∧
    SourceIs (prog [1101, 2147483647, 2147483647, 0]) 1 .immediate 2147483647 ∧
    SourceIs (prog [1101, 2147483647, 2147483647, 0]) 2 .immediate 2147483647 ∧
    DestinationIs (prog [1101, 2147483647, 2147483647, 0]) 3 0 ∧
    ¬ FitsCell ((2147483647 : Word).toInt + (2147483647 : Word).toInt) ∧
    ¬ FitsCell ((2147483647 : Word).toInt * (2147483647 : Word).toInt) :=
  ⟨rfl, ⟨by decide, by decide⟩, ⟨by decide, by decide⟩, ⟨0, ⟨by decide, by decide⟩, by decide, by decide⟩, by decide, by decide⟩

theorem witness_OverflowWrapsWhenSoConfigured :
    (progWrap [1102, 65536, 65536, 0]).config.arithOverflow = .wrap ∧
    SourceIs (progWrap [1102, 65536, 65536, 0]) 1 .immediate 65536 ∧
    SourceIs (progWrap [1102, 65536, 65536, 0]) 2 .immediate 65536 ∧
    DestinationIs (progWrap [1102, 65536, 65536, 0]) 3 0 :=
  ⟨rfl, ⟨by decide, by decide⟩, ⟨by decide, by decide⟩, ⟨0, ⟨by decide, by decide⟩, by decide, by decide⟩⟩

/-- Each clause at the edge of memory: operand 1 at address `N`; operand 2's cell missing; the destination at `-1`. -/
theorem witness_ArithmeticReportsTheFirstOperandFault :
    SourceFault (prog [1, 4, 0, 0]) 1 .position (.outOfBounds 4) ∧
    (SourceIs (prog [1, 1]) 1 .position 1 ∧ SourceFault (prog [1, 1]) 2 .immediate (.outOfBounds 2)) ∧
    (SourceIs (prog [1101, 0, 0, -1]) 1 .immediate 0 ∧ SourceIs (prog [1101, 0, 0, -1]) 2 .immediate 0 ∧
      DestinationFault (prog [1101, 0, 0, -1]) 3 (.outOfBounds (-1))) :=
  ⟨.inr ⟨rfl, 4, ⟨by decide, by decide⟩, by decide, by decide⟩,
    ⟨⟨1, ⟨by decide, by decide⟩, by decide, by decide⟩, .inl ⟨by decide, by decide⟩⟩,
    ⟨by decide, by decide⟩, ⟨by decide, by decide⟩,
    .inr ⟨BitVec.ofInt 32 (-1), ⟨by decide, by decide⟩, by decide, by decide⟩⟩

theorem witness_ArithmeticIdentitiesAndCommutativity :
    SourceIs (prog [1101, 0, 1, 0]) 1 .immediate 0 ∧ SourceIs (prog [1101, 0, 1, 0]) 2 .immediate 1 ∧
    DestinationIs (prog [1101, 0, 1, 0]) 3 0 ∧
    SourceIs (prog [1101, 1, 0, 0]) 1 .immediate 1 ∧ SourceIs (prog [1101, 1, 0, 0]) 2 .immediate 0 ∧
    DestinationIs (prog [1101, 1, 0, 0]) 3 0 ∧ (prog [1101, 1, 0, 0]).config = (prog [1101, 0, 1, 0]).config ∧
    (∃ t, exec (.add .immediate .immediate .position) (prog [1101, 0, 1, 0]) = .next t) ∧
    (∃ t, exec (.mul .immediate .immediate .position) (prog [1101, 1, 0, 0]) = .next t) :=
  ⟨⟨by decide, by decide⟩, ⟨by decide, by decide⟩, ⟨0, ⟨by decide, by decide⟩, by decide, by decide⟩,
    ⟨by decide, by decide⟩, ⟨by decide, by decide⟩, ⟨0, ⟨by decide, by decide⟩, by decide, by decide⟩, rfl,
    ⟨_, rfl⟩, ⟨_, rfl⟩⟩

theorem witness_ArithmeticFrame :
    (∃ t, exec (.add .immediate .immediate .position) (prog [1101, 5, 6, 0]) = .next t) ∧
    (prog [1101, 5, 6, 0]).destination 3 = .ok 0 ∧
    (∃ t, exec (.mul .immediate .immediate .position) (prog [1102, 5, 6, 9]) = .next t) ∧
    (prog [1102, 5, 6, 9]).destination 3 = .error (.outOfBounds 9) :=
  ⟨⟨_, rfl⟩, by rfl, ⟨_, rfl⟩, by rfl⟩

theorem witness_InStoresTheValueRead :
    DestinationIs (progIn [3, 1] [.value 42]) 1 1 ∧
    (progIn [3, 1] [.value 42]).input.answers[(progIn [3, 1] [.value 42]).pulled]? = some (.value 42) :=
  ⟨⟨1, ⟨by decide, by decide⟩, by decide, by decide⟩, by decide⟩

theorem witness_InFaultsOnABadAnswer :
    DestinationIs (prog [3, 1]) 1 1 ∧
    ((prog [3, 1]).input.answers.length ≤ (prog [3, 1]).pulled ∧ (prog [3, 1]).input.interactive = false) ∧
    (progIn [3, 1] [.exhausted]).input.answers[(progIn [3, 1] [.exhausted]).pulled]? = some .exhausted ∧
    (progIn [3, 1] [.malformed]).input.answers[(progIn [3, 1] [.malformed]).pulled]? = some .malformed :=
  ⟨⟨1, ⟨by decide, by decide⟩, by decide, by decide⟩, by decide, by decide, by decide⟩

theorem fetches_waiting : Fetches (stepState (progWaiting [3, 0])) (.inp .position) :=
  fetches_of (w := 3) (by decide) (by decide) (by decide)

theorem destination_waiting : DestinationIs (stepState (progWaiting [3, 0])) 1 0 :=
  ⟨0, ⟨by decide, by decide⟩, by decide, by decide⟩

/-- `3,0` waits for an answer and meets the invariant. -/
theorem stateInv_waiting : StateInv (stepState (progWaiting [3, 0])) where
  memory := by decide
  pointer := by decide
  record := by decide
  legal f h := by
    rw [show (stepState (progWaiting [3, 0])).fault = none by decide] at h
    cases h
  fresh := by decide
  source := by decide
  progress _ := ⟨by decide, by decide, fetches_waiting, ⟨0, destination_waiting⟩, by decide⟩

theorem pullUnanswered_fresh : PullUnanswered (progWaiting [3, 0]) :=
  ⟨rfl, fetches_of (w := 3) (by decide) (by decide) (by decide), ⟨0, 0, ⟨by decide, by decide⟩, by decide, by decide⟩, rfl,
    by decide⟩

/-- The first step, and a step that has waited already. -/
theorem witness_InWaitsForItsAnswer :
    (progWaiting [3, 0]).inStep = false ∧ (stepState (progWaiting [3, 0])).inStep = true ∧
    (stepState (progWaiting [3, 0])).run = .running ∧ Fetches (stepState (progWaiting [3, 0])) (.inp .position) ∧
    DestinationIs (stepState (progWaiting [3, 0])) 1 0 ∧ (stepState (progWaiting [3, 0])).input.interactive = true ∧
    (stepState (progWaiting [3, 0])).pulled = (stepState (progWaiting [3, 0])).input.answers.length ∧
    (progWaiting [3, 0]).run = .running ∧ Fetches (progWaiting [3, 0]) (.inp .position) ∧
    DestinationIs (progWaiting [3, 0]) 1 0 ∧ (progWaiting [3, 0]).input.interactive = true ∧
    (progWaiting [3, 0]).pulled = (progWaiting [3, 0]).input.answers.length :=
  ⟨rfl, by decide, by decide, fetches_waiting, destination_waiting, by decide, by decide,
    rfl, fetches_of (w := 3) (by decide) (by decide) (by decide), ⟨0, ⟨by decide, by decide⟩, by decide, by decide⟩, rfl, rfl⟩

theorem witness_InOperandFaultPullsNothing : DestinationFault (progIn [3, 7, 99] [.value 42]) 1 (.outOfBounds 7) :=
  .inr ⟨7, ⟨by decide, by decide⟩, by decide, by decide⟩

theorem witness_InFrame :
    (∃ t, exec (.inp .position) (progIn [3, 1] [.value 42]) = .next t) ∧
    (∃ t, exec (.inp .position) (progWaiting [3, 0]) = .next t) ∧
    (progIn [3, 1] [.value 42]).destination 1 = .ok 1 ∧ (prog [3]).destination 1 = .error (.outOfBounds 1) :=
  ⟨⟨_, rfl⟩, ⟨_, rfl⟩, by rfl, by rfl⟩

theorem witness_OutEmitsTheResolvedValue :
    SourceIs (prog [4, 0]) 1 .position 4 ∧ SourceIs (prog [104, -5]) 1 .immediate (BitVec.ofInt 32 (-5)) :=
  ⟨⟨0, ⟨by decide, by decide⟩, by decide, by decide⟩, by decide, by decide⟩

theorem witness_FaultingOutEmitsNothing :
    SourceFault (prog [4, 9, 99]) 1 .position (.outOfBounds 9) ∧ SourceFault (prog [104]) 1 .immediate (.outOfBounds 1) :=
  ⟨.inr ⟨rfl, 9, ⟨by decide, by decide⟩, by decide, by decide⟩, .inl ⟨by decide, by decide⟩⟩

theorem witness_OutFrame : ∃ t, exec (.out .position) (prog [4, 0]) = .next t := ⟨_, rfl⟩

theorem witness_AfterHaltNothingHappens :
    (prog [99]).run = .running ∧ Fetches (prog [99]) .hlt ∧ (prog [99]).mem.InBounds 0 :=
  ⟨rfl, fetches_of (w := 99) (by decide) (by decide) (by decide), by decide⟩

/-- A state in the middle of a run, one that waits and one that has faulted meet the invariant and step. -/
theorem witness_EveryStepKeepsTheInvariant :
    StateInv (stepState (prog [1101, 97, 2, 4, 0])) ∧ (∃ t, step (stepState (prog [1101, 97, 2, 4, 0])) = .next t) ∧
    StateInv (stepState (prog [4, 9, 99])) ∧ StateInv (stepState (progWaiting [3, 0])) := by
  refine ⟨⟨by decide, by decide, by decide, ?_, by decide, by decide, fun h => absurd h (by decide)⟩, ⟨_, rfl⟩,
    ⟨by decide, by decide, by decide, ?_, by decide, by decide, fun h => absurd h (by decide)⟩, stateInv_waiting⟩
  · intro f h
    rw [show (stepState (prog [1101, 97, 2, 4, 0])).fault = none by decide] at h
    cases h
  · intro f h
    rw [show (stepState (prog [4, 9, 99])).fault = some (.outOfBounds 9) by decide] at h
    cases h
    show ¬ (stepState (prog [4, 9, 99])).mem.InBounds 9
    decide

theorem witness_HostOperationsKeepTheInvariant :
    StateInv (progWaiting [3, 0]) ∧ (∃ t, poke 1 1 (progWaiting [3, 0]) = .ok t) ∧
    StateInv (stepState (progWaiting [3, 0])) ∧ ∃ t, answerPull (.value 7) (stepState (progWaiting [3, 0])) = .ok t := by
  refine ⟨⟨by decide, by decide, by decide, ?_, by decide, by decide, fun h => absurd h (by decide)⟩, ⟨_, rfl⟩,
    stateInv_waiting, ⟨_, rfl⟩⟩
  intro f h
  rw [show (progWaiting [3, 0]).fault = none by decide] at h
  cases h

theorem witness_ConstructionState : 1 < [(0 : Word), 5].length ∧ (Memory.ofProgram [0, 5]).get 1 = 5 := by decide

theorem witness_MemoryLengthNeverChanges :
    (∃ t, exec .hlt (prog [99]) = .next t) ∧ ∃ t, step (prog [1, 0, 0, 0]) = .next t := ⟨⟨_, rfl⟩, ⟨_, rfl⟩⟩

theorem witness_FaultsArePrecise :
    (prog [3, 0]).run = .running ∧ (∃ t, step (prog [3, 0]) = .next t ∧ t.run = .faulted ∧ t.pulled = 1) ∧
    ∃ t, step (prog [4, 9]) = .next t ∧ t.run = .faulted ∧ t.pulled = 0 :=
  ⟨rfl, ⟨_, rfl, by decide, by decide⟩, ⟨_, rfl, by decide, by decide⟩⟩

theorem witness_PointerAdvancesByTheWidth :
    (prog [1, 0, 0, 0]).run = .running ∧ Fetches (prog [1, 0, 0, 0]) (.add .position .position .position) ∧
    ¬ PullUnanswered (prog [1, 0, 0, 0]) ∧
    (∃ t, step (prog [1, 0, 0, 0]) = .next t ∧ t.run ≠ .faulted ∧ t.ip = t.mem.len) ∧
    (∃ t, step (prog [4, 9]) = .next t ∧ t.run = .faulted) ∧ ∃ t, step (prog [99]) = .next t :=
  ⟨rfl, fetches_of (w := 1) (by decide) (by decide) (by decide), not_pullUnanswered_of_queue rfl,
    ⟨_, rfl, by decide, by decide⟩,
    ⟨_, rfl, by decide⟩, ⟨_, rfl⟩⟩

theorem witness_OnlyInputPulls :
    (∃ t, step (progIn [3, 0] [.value 5]) = .next t) ∧ (progIn [3, 0] [.value 5]).run = .running ∧
    Fetches (progIn [3, 0] [.value 5]) (.inp .position) ∧ (∃ d, DestinationIs (progIn [3, 0] [.value 5]) 1 d) ∧
    ¬ PullUnanswered (progIn [3, 0] [.value 5]) ∧ PullUnanswered (progWaiting [3, 0]) :=
  ⟨⟨_, rfl⟩, rfl, fetches_of (w := 3) (by decide) (by decide) (by decide),
    ⟨0, 0, ⟨by decide, by decide⟩, by decide, by decide⟩, not_pullUnanswered_of_queue rfl, pullUnanswered_fresh⟩

theorem witness_OutputIsTheEmittedSequence :
    (prog [104, 7]).run = .running ∧ Fetches (prog [104, 7]) (.out .immediate) ∧
    SourceIs (prog [104, 7]) 1 .immediate 7 ∧ ∃ t, step (prog [104, 7]) = .next t :=
  ⟨rfl, fetches_of (w := 104) (by decide) (by decide) (by decide), ⟨by decide, by decide⟩, ⟨_, rfl⟩⟩

theorem witness_AtMostTheDestinationIsWritten :
    (∃ t, step (prog [1, 0, 0, 0]) = .next t) ∧
    Fetches (prog [1, 0, 0, 0]) (.add .position .position .position) ∧ (prog [1, 0, 0, 0]).destination 3 = .ok 0 ∧
    Fetches (prog [4, 0]) (.out .position) ∧ ∀ i, ¬ Fetches State.reset i :=
  ⟨⟨_, rfl⟩, fetches_of (w := 1) (by decide) (by decide) (by decide), by rfl,
    fetches_of (w := 4) (by decide) (by decide) (by decide), fun _ ⟨_, ⟨hb, _⟩, _⟩ => absurd hb (by decide)⟩

/-- P3 of 95_test_vectors.md: `1101,97,2,4,0` writes 99 over the next cell. -/
theorem witness_NextFetchSeesTheWrite :
    (prog [1101, 97, 2, 4, 0]).run = .running ∧
    Fetches (prog [1101, 97, 2, 4, 0]) (.add .immediate .immediate .position) ∧
    SourceIs (prog [1101, 97, 2, 4, 0]) 1 .immediate 97 ∧ SourceIs (prog [1101, 97, 2, 4, 0]) 2 .immediate 2 ∧
    DestinationIs (prog [1101, 97, 2, 4, 0]) 3 ((prog [1101, 97, 2, 4, 0]).ip + 4) ∧
    (99 : Word).toInt = (97 : Word).toInt + (2 : Word).toInt ∧ decode 99 = .ok .hlt :=
  ⟨rfl, fetches_of (w := 1101) (by decide) (by decide) (by decide), ⟨by decide, by decide⟩, ⟨by decide, by decide⟩,
    ⟨4, ⟨by decide, by decide⟩, by decide, by decide⟩, by decide, by decide⟩

theorem witness_StartedIsSetForGood :
    (∃ t, step (prog [5]) = .next t) ∧ (prog [5]).run = .running ∧ (stepState (prog [5])).started = true :=
  ⟨⟨_, rfl⟩, rfl, by decide⟩

theorem witness_HostVisibleCodes :
    (prog [99]).fault = none ∧ (stepState (prog [5])).fault = some (.unknownOpcode 5) ∧
    (stepState (prog [201])).fault = some (.unknownMode 2) ∧ (stepState (prog [])).fault = some (.outOfBounds 0) ∧
    (stepState (prog [3, 1])).fault = some (.inputFault .exhausted) ∧
    (stepState (progIn [3, 1] [.malformed])).fault = some (.inputFault .malformed) ∧
    (stepState (prog [103])).fault = some (.immediateDestination 1) ∧
    (stepState (prog [1102, 65536, 65536, 0])).fault = some (.arithmeticOverflow 2) := by decide

theorem witness_PokeOnlyBeforeTheFirstStep :
    (prog [99]).started = false ∧ (prog [99]).mem.InBounds 0 ∧ ¬ (prog [99]).mem.InBounds 1 ∧
    ¬ (prog [99]).mem.InBounds (-1) ∧ (stepState (prog [99])).started = true ∧ (prog [99]).run = .running ∧
    ∃ t, step (prog [99]) = .next t :=
  ⟨rfl, by decide, by decide, by decide, by decide, rfl, ⟨_, rfl⟩⟩

theorem witness_StepAndRunResults :
    (∃ t, step (prog [5]) = .next t ∧ t.inStep = false ∧ t.run = .faulted) ∧
    (runToCompletion 3 (prog [5])).1 = .err (some (.unknownOpcode 5)) ∧
    (runToCompletion 3 (prog [99])).2.run = .halted :=
  ⟨⟨_, rfl, by decide, by decide⟩, by decide, by decide⟩

theorem witness_AbortComesBetweenSteps : (runToCompletion 1 (prog [104, 1, 99])).1 = .aborted := by decide

theorem witness_InstancesAreIsolated : (0 : Nat) ≠ 1 ∧ (stepOne 1 [prog [99], prog [5]])[0]? = some (prog [99]) := by
  decide

/-- Both ways the request ends; the first is refused for each of its reasons: no step, a queue, an answer already there. -/
theorem witness_AnswersOnlyWhileAnInWaits :
    (progWaiting [3, 0]).inStep = false ∧ State.reset.input.interactive = false ∧
    ¬ (((stepState (progWaiting [3, 0])).receiveAnswer (.value 7)).input.answers.length ≤
      ((stepState (progWaiting [3, 0])).receiveAnswer (.value 7)).pulled) ∧
    (stepState (progWaiting [3, 0])).inStep = true ∧ (stepState (progWaiting [3, 0])).input.interactive = true ∧
    (stepState (progWaiting [3, 0])).input.answers.length ≤ (stepState (progWaiting [3, 0])).pulled ∧
    StateInv (stepState (progWaiting [3, 0])) ∧ ∃ t, answerPull (.value 7) (stepState (progWaiting [3, 0])) = .ok t :=
  ⟨rfl, rfl, by decide, by decide, by decide, by decide, stateInv_waiting, ⟨_, rfl⟩⟩

theorem witness_StepIsOverUnlessAnInWaits :
    (progWaiting [3, 0]).run = .running ∧ (∃ t, step (progWaiting [3, 0]) = .next t ∧ t.inStep = true) ∧
    PullUnanswered (progWaiting [3, 0]) ∧ ∃ t, step (prog [99]) = .next t ∧ t.inStep = false :=
  ⟨rfl, ⟨_, rfl, by decide⟩, pullUnanswered_fresh, ⟨_, rfl, by decide⟩⟩

theorem witness_PeekOnlyBetweenSteps :
    (prog [99]).inStep = false ∧ (prog [99]).mem.InBounds 0 ∧ ¬ (prog [99]).mem.InBounds 1 ∧
    (stepState (progWaiting [3, 0])).inStep = true := by decide

theorem witness_RegistersReadOnlyBetweenSteps :
    (prog [99]).inStep = false ∧ (stepState (progWaiting [3, 0])).inStep = true ∧
    (prog [99]).run = .running ∧ (∃ t, step (prog [99]) = .next t) ∧ ¬ PullUnanswered (prog [99]) ∧
    (progWaiting [3, 0]).run = .running ∧ (∃ t, step (progWaiting [3, 0]) = .next t) ∧
    PullUnanswered (progWaiting [3, 0]) :=
  ⟨rfl, by decide, rfl, ⟨_, rfl⟩, not_pullUnanswered_of_queue rfl, rfl, ⟨_, rfl⟩, pullUnanswered_fresh⟩

end Sys2Proof.Machine.Tests
end

section
/-! SUPPORT. What the proofs of the statements share: a step always answers a next state, while `RUN = Running` it is
`exec` of the fetched instruction, and the inductions over one step and over many. -/

namespace Sys2Proof.Machine

/-! ### A step always answers a next state (log entry 1) -/

theorem orRaise_answers_next {α : Type} {s : State} {go : α → Host.Outcome State Fault Refusal}
    (r : Except Fault α) (hgo : ∀ x, ∃ t, go x = .next t) : ∃ t, orRaise s r go = .next t := by
  cases r with
  | error f => exact ⟨s.raise f, rfl⟩
  | ok x => exact hgo x

theorem arithmetic_answers_next (op : Nat) (g : Int → Int → Int) (a b c : Mode) (s : State) :
    ∃ t, arithmetic op g a b c s = .next t :=
  orRaise_answers_next _ fun _ => orRaise_answers_next _ fun _ => ⟨_, rfl⟩

theorem execInp_answers_next (a : Mode) (s : State) : ∃ t, execInp a s = .next t :=
  orRaise_answers_next _ fun d => by cases s.nextAnswer <;> exact ⟨_, rfl⟩

theorem exec_answers_next (i : Instr) (s : State) : ∃ t, exec i s = .next t := by
  cases i with
  | add a b c => exact arithmetic_answers_next 1 _ a b c s
  | mul a b c => exact arithmetic_answers_next 2 _ a b c s
  | inp a => exact execInp_answers_next a s
  | out a => exact orRaise_answers_next _ fun _ => ⟨_, rfl⟩
  | hlt => exact ⟨s.halt, rfl⟩

theorem step_answers_next (s : State) : ∃ t, step s = .next t := by
  unfold step
  cases s.run with
  | running => exact orRaise_answers_next _ fun i => exec_answers_next i s.start
  | halted => exact ⟨s, rfl⟩
  | faulted => exact ⟨s, rfl⟩

theorem stepState_eq_of_step {s t : State} (h : step s = .next t) : stepState s = t := by
  simp [stepState, h]

theorem step_eq_next_stepState (s : State) : step s = .next (stepState s) := by
  obtain ⟨t, ht⟩ := step_answers_next s
  rw [ht, stepState_eq_of_step ht]

/-! ### A step through its fetched instruction -/

/-- Setting `STARTED` changes no cell and not `IP`, so the fetch sees the state before it. -/
@[simp] theorem State.start_fetch (s : State) : s.start.fetch = s.fetch := rfl

/-- Reads see only memory and `IP`, which setting `STARTED` leaves. -/
@[simp] theorem sourceIs_start_iff {s : State} {k : Nat} {m : Mode} {v : Word} :
    SourceIs s.start k m v ↔ SourceIs s k m v := by
  cases m <;> rfl

theorem step_of_fetches {s : State} {i : Instr} (hrun : s.run = .running) (hi : Fetches s i) :
    step s = exec i s.start := by
  simp [step, hrun, State.fetch_eq_ok_iff.2 hi, orRaise]

/-- What neither `start` nor a fault changes, a step changes only through the instruction it executes. -/
theorem step_keeps_of_exec_keeps {α : Type} {g : State → α} {s t : State} (hstart : g s.start = g s)
    (hraise : ∀ f, g (s.start.raise f) = g s.start)
    (hexec : ∀ i, s.run = .running → Fetches s i → exec i s.start = .next t → g t = g s.start)
    (h : step s = .next t) : g t = g s := by
  rcases step_eq_next_iff.1 h with ⟨-, rfl⟩ | ⟨-, f, -, rfl⟩ | ⟨hrun, i, hi, ht⟩
  · rfl
  · exact (hraise f).trans hstart
  · exact (hexec i hrun (State.fetch_eq_ok_iff.1 hi) ht).trans hstart

/-- What every step keeps holds after any number of steps. -/
theorem runSteps_keeps {P : State → Prop} (hstep : ∀ s t, P s → step s = .next t → P t) :
    ∀ (k : Nat) {s : State}, P s → P (runSteps k s)
  | 0, _, hs => hs
  | k + 1, s, hs => runSteps_keeps hstep k (hstep s _ hs (step_eq_next_stepState s))

end Sys2Proof.Machine
end

section
/-! SUPPORT. The memory length through every meaning (10_state.md R15), and O34. -/

namespace Sys2Proof.Machine

@[simp] theorem receive_mem_len (d : Nat) (answer : InputAnswer) (s : State) :
    (receive d answer s).mem.len = s.mem.len := by
  cases answer <;> rfl

theorem arithmetic_mem_len {op : Nat} {g : Int → Int → Int} {a b c : Mode} {s t : State}
    (h : arithmetic op g a b c s = .next t) : t.mem.len = s.mem.len := by
  rcases arithmetic_eq_next_iff.1 h with ⟨f, -, rfl⟩ | ⟨x, f, -, -, rfl⟩ | ⟨x, r, -, -, rfl⟩ <;> simp

theorem execInp_mem_len {a : Mode} {s t : State} (h : execInp a s = .next t) : t.mem.len = s.mem.len := by
  rcases execInp_eq_next_iff.1 h with ⟨f, -, rfl⟩ | ⟨d, -, -, rfl⟩ | ⟨d, answer, -, -, rfl⟩ <;> simp

theorem execOut_mem {a : Mode} {s t : State} (h : execOut a s = .next t) : t.mem = s.mem := by
  rcases execOut_eq_next_iff.1 h with ⟨f, -, rfl⟩ | ⟨v, -, rfl⟩ <;> simp

theorem exec_mem_len {i : Instr} {s t : State} (h : exec i s = .next t) : t.mem.len = s.mem.len := by
  cases i with
  | add a b c => exact arithmetic_mem_len h
  | mul a b c => exact arithmetic_mem_len h
  | inp a => exact execInp_mem_len h
  | out a => exact congrArg Memory.len (execOut_mem h)
  | hlt => cases h; rfl

theorem step_mem_len {s t : State} (h : step s = .next t) : t.mem.len = s.mem.len :=
  step_keeps_of_exec_keeps (g := fun u => u.mem.len) rfl (fun _ => rfl) (fun _ _ _ => exec_mem_len) h

theorem runSteps_mem_len (k : Nat) (s : State) : (runSteps k s).mem.len = s.mem.len :=
  runSteps_keeps (P := fun t => t.mem.len = s.mem.len) (fun _ _ hu h => (step_mem_len h).trans hu) k rfl

/-- Settles O34: the one write of a step replaces a cell and keeps the length; steps are composed by induction. -/
theorem memoryLengthNeverChanges : Obligations.MemoryLengthNeverChanges :=
  ⟨fun _ _ _ => exec_mem_len, fun _ _ => step_mem_len, runSteps_mem_len⟩

end Sys2Proof.Machine
end

section
/-! SUPPORT. `OUT` through every meaning (10_state.md R23), and O38. -/

namespace Sys2Proof.Machine

@[simp] theorem receive_out (d : Nat) (answer : InputAnswer) (s : State) : (receive d answer s).out = s.out := by
  cases answer <;> rfl

theorem arithmetic_out {op : Nat} {g : Int → Int → Int} {a b c : Mode} {s t : State}
    (h : arithmetic op g a b c s = .next t) : t.out = s.out := by
  rcases arithmetic_eq_next_iff.1 h with ⟨f, -, rfl⟩ | ⟨x, f, -, -, rfl⟩ | ⟨x, r, -, -, rfl⟩ <;> simp

theorem execInp_out {a : Mode} {s t : State} (h : execInp a s = .next t) : t.out = s.out := by
  rcases execInp_eq_next_iff.1 h with ⟨f, -, rfl⟩ | ⟨d, -, -, rfl⟩ | ⟨d, answer, -, -, rfl⟩ <;> simp

/-- OUT with a source that resolves emits the value and completes (42_io.md R88). -/
theorem execOut_of_sourceIs {a : Mode} {v : Word} {s : State} (hv : SourceIs s 1 a v) :
    execOut a s = .next ((s.emit v).advance 2) :=
  execOut_eq_next_iff.2 (.inr ⟨v, State.source_eq_ok_iff.2 hv, rfl⟩)

/-- Without a source value OUT faults, and a fault keeps `OUT` (60_exceptions.md R100). -/
theorem execOut_out_of_no_source {a : Mode} {s t : State} (hno : ∀ v, ¬ SourceIs s 1 a v)
    (h : execOut a s = .next t) : t.out = s.out := by
  rcases execOut_eq_next_iff.1 h with ⟨f, -, rfl⟩ | ⟨v, hv, rfl⟩
  · rfl
  · exact absurd (State.source_eq_ok_iff.1 hv) (hno v)

theorem exec_out_of_not_emitting {i : Instr} {s t : State} (hno : ∀ a v, i = .out a → ¬ SourceIs s 1 a v)
    (h : exec i s = .next t) : t.out = s.out := by
  cases i with
  | add a b c => exact arithmetic_out h
  | mul a b c => exact arithmetic_out h
  | inp a => exact execInp_out h
  | out a => exact execOut_out_of_no_source (fun v => hno a v rfl) h
  | hlt => cases h; rfl

theorem step_out_of_emitting {s t : State} {a : Mode} {v : Word} (hrun : s.run = .running)
    (hi : Fetches s (.out a)) (hv : SourceIs s 1 a v) (h : step s = .next t) : t.out = s.out ++ [v] := by
  have hexec : step s = .next ((s.start.emit v).advance 2) :=
    (step_of_fetches hrun hi).trans (execOut_of_sourceIs (sourceIs_start_iff.2 hv))
  cases hexec.symm.trans h
  rfl

theorem step_out_of_not_emitting {s t : State}
    (hno : ¬ ∃ (a : Mode) (v : Word), s.run = .running ∧ Fetches s (.out a) ∧ SourceIs s 1 a v)
    (h : step s = .next t) : t.out = s.out := by
  refine step_keeps_of_exec_keeps (g := State.out) rfl (fun _ => rfl) (fun i hrun hi => ?_) h
  refine exec_out_of_not_emitting fun a v hia hv => hno ⟨a, v, hrun, ?_, sourceIs_start_iff.1 hv⟩
  exact hia ▸ hi

/-- Settles O38: an OUT whose source resolves appends its value, and every other meaning keeps `OUT`. -/
theorem outputIsTheEmittedSequence : Obligations.OutputIsTheEmittedSequence :=
  ⟨fun _ _ _ => rfl, fun _ _ h =>
    ⟨fun _ _ hrun hi hv => step_out_of_emitting hrun hi hv h, fun hno => step_out_of_not_emitting hno h⟩⟩

end Sys2Proof.Machine
end

section
/-! SUPPORT. Width and destination by opcode (30_encoding.md R48, R49), and O5. -/

namespace Sys2Proof.Machine

theorem opcodeRow_eq_none_iff {c : Int} : opcodeRow c = none ↔ c ∉ ({1, 2, 3, 4, 99} : Set Int) := by
  simp only [opcodeRow, Set.mem_insert_iff, Set.mem_singleton_iff]
  split_ifs <;> simp <;> omega

theorem opcodeRow_eq_some_iff {c : Int} {row : OpcodeRow} :
    opcodeRow c = some row ↔
      ((c = 1 ∨ c = 2) ∧ row = { width := 4, dest := some 3 }) ∨ (c = 3 ∧ row = { width := 2, dest := some 1 }) ∨
      (c = 4 ∧ row = { width := 2, dest := none }) ∨ (c = 99 ∧ row = { width := 1, dest := none }) := by
  unfold opcodeRow
  split_ifs with h12 h3 h4 h99
  · rcases h12 with rfl | rfl <;> simp [eq_comm]
  · simp [h3, eq_comm]
  · simp [h4, eq_comm]
  · simp [h99, eq_comm]
  · simp [h12, h3, h4, h99]

/-- The operands an opcode has: 1 to 3 for Add and Multiply, 1 for Input and Output, none for Halt. -/
theorem operand_of_row {c : Int} {row : OpcodeRow} {j : Nat} (hrow : opcodeRow c = some row) (h1 : 1 ≤ j)
    (hj : j < row.width) : ((c = 1 ∨ c = 2) ∧ j ≤ 3) ∨ ((c = 3 ∨ c = 4) ∧ j = 1) := by
  rcases opcodeRow_eq_some_iff.1 hrow with ⟨h, rfl⟩ | ⟨h, rfl⟩ | ⟨h, rfl⟩ | ⟨h, rfl⟩ <;> dsimp only at hj <;> omega

/-- The table has a row for every instruction, with its width and destination. -/
theorem opcodeRow_opcode (i : Instr) : opcodeRow i.opcode = some { width := i.width, dest := i.dest } := by
  cases i <;> rfl

/-- Settles O5: width and destination are read off the opcode's row of the table. -/
theorem widthIsAFunctionOfTheOpcode : Obligations.WidthIsAFunctionOfTheOpcode := by
  refine ⟨fun i j hij => ?_, fun i => ?_⟩
  · have hrow := opcodeRow_opcode i
    rw [hij, opcodeRow_opcode j] at hrow
    simpa [eq_comm] using hrow
  · cases i <;> simp [Instr.opcode, Instr.width, Instr.dest]

end Sys2Proof.Machine
end

section
/-! SUPPORT. The digit loop of R54 one operand at a time, its agreement with the decoder, and O3. -/

namespace Sys2Proof.Machine

/-- What the decoder answers for operand `k` alone (30_encoding.md R51, R52). -/
def operandMode (w : Nat) (dest : Option Nat) (k : Nat) : Except DecodeFault Mode :=
  if some k = dest then decodeDestination w k else decodeSource w k

/-- An operand is refused for its digit 2 to 9, or, as the destination, for its digit 1 (30_encoding.md R58). -/
theorem operandMode_eq_error_iff {w k : Nat} {dest : Option Nat} {f : DecodeFault} :
    operandMode w dest k = .error f ↔
      (2 ≤ digit w (k + 1) ∧ f = .unknownMode (digit w (k + 1))) ∨
      (some k = dest ∧ digit w (k + 1) = 1 ∧ f = .immediateDestination k) := by
  have hbad : digit w (k + 1) ≠ 0 ∧ digit w (k + 1) ≠ 1 ↔ 2 ≤ digit w (k + 1) := by omega
  unfold operandMode
  split_ifs with hk
  · simp [decodeDestination_eq_error_iff, ← hbad, hk, and_assoc]
  · simp [decodeSource_eq_error_iff, ← hbad, hk, and_assoc]

theorem operandMode_eq_ok_iff {w k : Nat} {dest : Option Nat} {m : Mode} :
    operandMode w dest k = .ok m ↔ digit w (k + 1) = m.digit ∧ (some k = dest → m = .position) := by
  unfold operandMode
  split_ifs with hk
  · cases m <;> simp [decodeDestination_eq_ok_iff, hk, Mode.digit]
  · simp [decodeSource_eq_ok_iff, hk]

theorem decodeModeLoop_zero (w : Nat) (dest : Option Nat) (k : Nat) : decodeModeLoop w dest 0 k = .ok [] := rfl

/-- The loop answers for its first operand, then for the rest. -/
theorem decodeModeLoop_succ (w : Nat) (dest : Option Nat) (n k : Nat) :
    decodeModeLoop w dest (n + 1) k =
      (operandMode w dest k).bind fun m => (decodeModeLoop w dest n (k + 1)).map (m :: ·) := by
  rw [decodeModeLoop]
  cases hm : operandMode w dest k with
  | error f =>
    rcases operandMode_eq_error_iff.1 hm with ⟨h2, rfl⟩ | ⟨hk, h1, rfl⟩
    · rw [if_pos (by omega)]; rfl
    · rw [if_neg (by omega), if_pos ⟨hk, h1⟩]; rfl
  | ok m =>
    obtain ⟨hdigit, hpos⟩ := operandMode_eq_ok_iff.1 hm
    have hnot : ¬ (some k = dest ∧ m.digit = 1) := fun ⟨hk, h1⟩ => by simp [hpos hk, Mode.digit] at h1
    rw [hdigit, if_neg (by cases m <;> decide), if_neg hnot]
    cases decodeModeLoop w dest n (k + 1) <;> cases m <;> rfl

/-! ### The decoder and the loop -/

/-- What R54 returns for an instruction: its opcode and its mode list. -/
def opcodeAndModes (i : Instr) : Int × List Mode := (i.opcode, i.modes)

/-- Format F4 is three rounds of the loop (30_encoding.md R50, R54). -/
theorem decodeF4_map_opcodeAndModes {build : Mode → Mode → Mode → Instr} {code : Int}
    (hbuild : ∀ a b c, opcodeAndModes (build a b c) = (code, [a, b, c])) (w : Nat) :
    (decodeF4 build w).map opcodeAndModes = (decodeModeLoop w (some 3) 3 1).map (code, ·) := by
  have h1 : operandMode w (some 3) 1 = decodeSource w 1 := rfl
  have h2 : operandMode w (some 3) 2 = decodeSource w 2 := rfl
  have h3 : operandMode w (some 3) 3 = decodeDestination w 3 := rfl
  simp only [decodeModeLoop_succ, h1, h2, h3, decodeF4]
  cases decodeSource w 1 with
  | error f => rfl
  | ok a =>
    cases decodeSource w 2 with
    | error f => rfl
    | ok b =>
      cases decodeDestination w 3 with
      | error f => rfl
      | ok c => exact congrArg Except.ok (hbuild a b c)

/-- Format F2 is one round of the loop (30_encoding.md R50, R54). -/
theorem decodeF2_map_opcodeAndModes {build : Mode → Instr} {code : Int}
    (hbuild : ∀ a, opcodeAndModes (build a) = (code, [a])) (w : Nat) (dest : Option Nat) :
    (decodeF2 build (operandMode w dest 1)).map opcodeAndModes = (decodeModeLoop w dest 1 1).map (code, ·) := by
  rw [decodeModeLoop_succ]
  cases operandMode w dest 1 with
  | error f => rfl
  | ok a => exact congrArg Except.ok (hbuild a)

theorem decodeLoop_of_row {w : Word} {row : OpcodeRow} (h : opcodeRow (opcodeValue w) = some row) :
    decodeLoop w = (decodeModeLoop w.toInt.toNat row.dest (row.width - 1) 1).map (opcodeValue w, ·) := by
  unfold opcodeValue at h ⊢
  unfold decodeLoop
  rw [h]
  dsimp only
  cases decodeModeLoop w.toInt.toNat row.dest (row.width - 1) 1 <;> rfl

theorem decodeLoop_of_no_row {w : Word} (h : opcodeRow (opcodeValue w) = none) :
    decodeLoop w = .error (.unknownOpcode (opcodeValue w)) := by
  unfold opcodeValue at h ⊢
  unfold decodeLoop
  rw [h]

/-- `decode` is the loop of R54, row by row of the opcode table. -/
theorem decode_map_opcodeAndModes (w : Word) : (decode w).map opcodeAndModes = decodeLoop w := by
  cases hrow : opcodeRow (opcodeValue w) with
  | none =>
    rw [decodeLoop_of_no_row hrow, decode_of_unknownOpcode]
    · rfl
    · simpa using opcodeRow_eq_none_iff.1 hrow
  | some row =>
    rw [decodeLoop_of_row hrow]
    rcases opcodeRow_eq_some_iff.1 hrow with ⟨h | h, rfl⟩ | ⟨h, rfl⟩ | ⟨h, rfl⟩ | ⟨h, rfl⟩ <;> simp only [decode, h]
    · exact decodeF4_map_opcodeAndModes (fun _ _ _ => rfl) _
    · exact decodeF4_map_opcodeAndModes (fun _ _ _ => rfl) _
    · exact decodeF2_map_opcodeAndModes (fun _ => rfl) _ (some 1)
    · exact decodeF2_map_opcodeAndModes (fun _ => rfl) _ none
    · rfl

theorem length_modes (i : Instr) : i.modes.length = i.width - 1 := by
  cases i <;> rfl

/-- Settles O3: `decode` and the loop agree row by row of the opcode table. -/
theorem decodeFollowsDigitLoop : Obligations.DecodeFollowsDigitLoop := by
  refine fun w => ⟨?_, fun i _ => length_modes i⟩
  rw [← decode_map_opcodeAndModes w]
  cases decode w <;> rfl

end Sys2Proof.Machine
end

section
/-! SUPPORT. Which words the loop of R54 refuses (30_encoding.md R58), and O4. -/

namespace Sys2Proof.Machine

theorem exceptMap_eq_error_iff {ε α β : Type} {g : α → β} {r : Except ε α} {f : ε} :
    r.map g = .error f ↔ r = .error f := by
  cases r <;> simp [Except.map]

/-- The loop reports its first operand's fault, or else what the rest reports (30_encoding.md R55). -/
theorem decodeModeLoop_succ_eq_error_iff {w n k : Nat} {dest : Option Nat} {f : DecodeFault} :
    decodeModeLoop w dest (n + 1) k = .error f ↔
      operandMode w dest k = .error f ∨
      (∃ m, operandMode w dest k = .ok m) ∧ decodeModeLoop w dest n (k + 1) = .error f := by
  rw [decodeModeLoop_succ]
  cases operandMode w dest k with
  | error g => simp [Except.bind]
  | ok m => simp [Except.bind, exceptMap_eq_error_iff]

/-- A fault of the loop is the fault of one of its operands. -/
theorem exists_operandMode_of_decodeModeLoop {w : Nat} {dest : Option Nat} {f : DecodeFault} :
    ∀ {n k}, decodeModeLoop w dest n k = .error f → ∃ j, k ≤ j ∧ j < k + n ∧ operandMode w dest j = .error f
  | 0, _, h => nomatch h
  | n + 1, k, h => by
    rcases decodeModeLoop_succ_eq_error_iff.1 h with hk | ⟨-, hrest⟩
    · exact ⟨k, le_rfl, by omega, hk⟩
    · obtain ⟨j, hkj, hjn, hj⟩ := exists_operandMode_of_decodeModeLoop hrest
      exact ⟨j, by omega, by omega, hj⟩

/-- The loop fails when its first operand's digit is refused or the rest fails. -/
theorem decodeModeLoop_succ_fails_iff {w n k : Nat} {dest : Option Nat} :
    (∃ f, decodeModeLoop w dest (n + 1) k = .error f) ↔
      (2 ≤ digit w (k + 1) ∨ some k = dest ∧ digit w (k + 1) = 1) ∨
      ∃ f, decodeModeLoop w dest n (k + 1) = .error f := by
  have hfirst : (∃ f, operandMode w dest k = .error f) ↔
      2 ≤ digit w (k + 1) ∨ some k = dest ∧ digit w (k + 1) = 1 := by
    simp only [operandMode_eq_error_iff, exists_or, ← and_assoc, exists_and_left, exists_eq, and_true]
  simp only [decodeModeLoop_succ_eq_error_iff, ← hfirst]
  cases operandMode w dest k <;> simp

/-- Every word that does not decode, by opcode row and loop. -/
theorem decode_eq_error_iff {w : Word} {f : DecodeFault} :
    decode w = .error f ↔
      (opcodeRow (opcodeValue w) = none ∧ f = .unknownOpcode (opcodeValue w)) ∨
      ∃ row, opcodeRow (opcodeValue w) = some row ∧
        decodeModeLoop w.toInt.toNat row.dest (row.width - 1) 1 = .error f := by
  rw [← exceptMap_eq_error_iff (g := opcodeAndModes), decode_map_opcodeAndModes]
  cases hrow : opcodeRow (opcodeValue w) with
  | none => simp [decodeLoop_of_no_row hrow, eq_comm]
  | some row => simp [decodeLoop_of_row hrow, exceptMap_eq_error_iff]

/-- A word that does not decode has no opcode, or an operand of its row that is refused. -/
theorem operandMode_of_decode_eq_error {w : Word} {f : DecodeFault} (h : decode w = .error f) :
    (opcodeRow (opcodeValue w) = none ∧ f = .unknownOpcode (opcodeValue w)) ∨
    ∃ row j, opcodeRow (opcodeValue w) = some row ∧ 1 ≤ j ∧ j < row.width ∧
      operandMode w.toInt.toNat row.dest j = .error f := by
  rcases decode_eq_error_iff.1 h with hnone | ⟨row, hrow, hloop⟩
  · exact .inl hnone
  · obtain ⟨j, h1j, hj, hmode⟩ := exists_operandMode_of_decodeModeLoop hloop
    exact .inr ⟨row, j, hrow, h1j, by omega, hmode⟩

/-- R58, the list of its cases. -/
theorem decode_fails_iff (w : Word) :
    (∃ f, decode w = .error f) ↔
      (opcodeValue w ∉ ({1, 2, 3, 4, 99} : Set Int)) ∨
      (opcodeValue w ∈ ({1, 2} : Set Int) ∧ ∃ k ∈ ({2, 3, 4} : Set Nat), 2 ≤ digit w.toInt.toNat k) ∨
      (opcodeValue w ∈ ({3, 4} : Set Int) ∧ 2 ≤ digit w.toInt.toNat 2) ∨
      (opcodeValue w ∈ ({1, 2} : Set Int) ∧ digit w.toInt.toNat 4 = 1) ∨
      (opcodeValue w = 3 ∧ digit w.toInt.toNat 2 = 1) := by
  cases hrow : opcodeRow (opcodeValue w) with
  | none => simp [decode_eq_error_iff, hrow, opcodeRow_eq_none_iff.1 hrow]
  | some row =>
    have hloop : (∃ f, decode w = .error f) ↔
        ∃ f, decodeModeLoop w.toInt.toNat row.dest (row.width - 1) 1 = .error f := by
      simp [decode_eq_error_iff, hrow]
    rw [hloop]
    rcases opcodeRow_eq_some_iff.1 hrow with ⟨h | h, rfl⟩ | ⟨h, rfl⟩ | ⟨h, rfl⟩ | ⟨h, rfl⟩ <;>
      simp [h, decodeModeLoop_succ_fails_iff, decodeModeLoop_zero, or_assoc]

theorem decode_eq_unknownOpcode_iff {w : Word} {c : Int} :
    decode w = .error (.unknownOpcode c) ↔ opcodeValue w ∉ ({1, 2, 3, 4, 99} : Set Int) ∧ c = opcodeValue w := by
  rw [← opcodeRow_eq_none_iff]
  constructor
  · intro h
    rcases operandMode_of_decode_eq_error h with ⟨hnone, hc⟩ | ⟨row, j, -, -, -, hmode⟩
    · exact ⟨hnone, DecodeFault.unknownOpcode.inj hc⟩
    · simp [operandMode_eq_error_iff] at hmode
  · rintro ⟨hnone, rfl⟩
    exact decode_eq_error_iff.2 (.inl ⟨hnone, rfl⟩)

theorem digit_of_decode_unknownMode {w : Word} {d : Nat} (h : decode w = .error (.unknownMode d)) :
    2 ≤ d ∧ d ≤ 9 ∧ opcodeValue w ∈ ({1, 2, 3, 4} : Set Int) ∧
    ∃ k ∈ ({2, 3, 4} : Set Nat), digit w.toInt.toNat k = d ∧ (opcodeValue w ∈ ({3, 4} : Set Int) → k = 2) := by
  rcases operandMode_of_decode_eq_error h with ⟨-, hd⟩ | ⟨row, j, hrow, h1j, hj, hmode⟩
  · cases hd
  rcases operandMode_eq_error_iff.1 hmode with ⟨h2, hd⟩ | ⟨-, -, hd⟩
  · cases hd
    have h9 := digit_lt w.toInt.toNat (j + 1)
    have hop := operand_of_row hrow h1j hj
    refine ⟨h2, by omega, ?_, j + 1, ?_, rfl, ?_⟩ <;> simp only [Set.mem_insert_iff, Set.mem_singleton_iff] <;> omega
  · cases hd

theorem digit_of_decode_immediateDestination {w : Word} {k : Nat} (h : decode w = .error (.immediateDestination k)) :
    (k = 3 ∧ opcodeValue w ∈ ({1, 2} : Set Int) ∧ digit w.toInt.toNat 4 = 1) ∨
    (k = 1 ∧ opcodeValue w = 3 ∧ digit w.toInt.toNat 2 = 1) := by
  rcases operandMode_of_decode_eq_error h with ⟨-, hk⟩ | ⟨row, j, hrow, -, -, hmode⟩
  · cases hk
  rcases operandMode_eq_error_iff.1 hmode with ⟨-, hk⟩ | ⟨hdest, h1, hk⟩
  · cases hk
  · cases hk
    rcases opcodeRow_eq_some_iff.1 hrow with ⟨h12, rfl⟩ | ⟨h3, rfl⟩ | ⟨-, rfl⟩ | ⟨-, rfl⟩ <;> cases hdest
    · exact .inl ⟨rfl, by simpa using h12, h1⟩
    · exact .inr ⟨rfl, h3, h1⟩

/-- A running step on a word that does not decode takes its fault (40_execute_cycle.md R68). -/
theorem step_of_decode_error {s : State} {w : Word} {d : DecodeFault} (hrun : s.run = .running)
    (hw : CellHolds s s.ip w) (hd : decode w = .error d) : step s = .next (s.start.raise (Fault.ofDecode d)) :=
  step_eq_next_iff.2 (.inr (.inl ⟨hrun, _, State.fetch_eq_error_iff.2 (.inr ⟨w, d, hw, hd, rfl⟩), rfl⟩))

/-- Settles O4: a word fails with the fault of an operand of its row, and taking a fault writes no cell. -/
theorem illegalWordsExactly : Obligations.IllegalWordsExactly :=
  ⟨fun w => ⟨decode_fails_iff w, fun _ => decode_eq_unknownOpcode_iff, fun _ => digit_of_decode_unknownMode,
      fun _ => digit_of_decode_immediateDestination⟩,
    fun _ _ _ hrun hw hd => ⟨_, step_of_decode_error hrun hw hd, rfl, rfl, rfl⟩⟩

end Sys2Proof.Machine
end

section
/-! SUPPORT. The cycle of R69 one piece at a time, its agreement with `exec`, and O7. -/

namespace Sys2Proof.Machine

/-! ### The operand loop one operand at a time (40_execute_cycle.md R70 to R73) -/

/-- What the rest of the loop gives, with this source value before its own. -/
def Resolved.consVal (v : Word) (r : Resolved) : Resolved := { r with vals := v :: r.vals }

/-- What the rest of the loop gives, with this destination. -/
def Resolved.setAddr (d : Nat) (r : Resolved) : Resolved := { r with addr := some d }

/-- At a source the loop resolves it, then goes on. -/
theorem operandLoop_source {s : State} {dest : Option Nat} {k : Nat} {m : Mode} {ms : List Mode}
    (hk : some k ≠ dest) :
    operandLoop s dest k (m :: ms) =
      (s.source k m).bind fun v => (operandLoop s dest (k + 1) ms).map (Resolved.consVal v) := by
  rw [operandLoop]
  unfold State.source State.operandCell
  cases s.load (s.ip + k) with
  | error f => rfl
  | ok p =>
    have hmode : (if m = Mode.position then s.load p.toInt else .ok p) = s.resolveSource m p := by cases m <;> rfl
    simp only [hk, if_false, hmode]
    cases s.resolveSource m p with
    | error f => rfl
    | ok v => cases operandLoop s dest (k + 1) ms <;> rfl

/-- At the destination the loop takes its checked address, then goes on. -/
theorem operandLoop_destination (s : State) (k : Nat) (m : Mode) (ms : List Mode) :
    operandLoop s (some k) k (m :: ms) =
      (s.destination k).bind fun d => (operandLoop s (some k) (k + 1) ms).map (Resolved.setAddr d) := by
  rw [operandLoop]
  unfold State.destination State.operandCell State.checkAddress
  cases s.load (s.ip + k) with
  | error f => rfl
  | ok p =>
    simp only [if_true]
    by_cases hb : s.mem.InBounds p.toInt
    · rw [if_pos hb, if_pos hb]
      cases operandLoop s (some k) (k + 1) ms <;> rfl
    · rw [if_neg hb, if_neg hb]
      rfl

/-- The operands of format F4 as the loop gives them. -/
def ArithOperands.resolved (x : ArithOperands) : Resolved := { vals := [x.val1, x.val2], addr := some x.addr }

/-- Format F4 is three rounds of the loop. -/
theorem operandLoop_arith (s : State) (a b : Mode) :
    operandLoop s (some 3) 1 [a, b, .position] = (s.arithOperands a b .position).map ArithOperands.resolved := by
  rw [operandLoop_source (by decide), operandLoop_source (by decide), operandLoop_destination]
  unfold State.arithOperands
  cases s.source 1 a with
  | error f => rfl
  | ok v1 =>
    cases s.source 2 b with
    | error f => rfl
    | ok v2 => cases s.destination 3 <;> rfl

/-- The one operand of IN is one round of the loop. -/
theorem operandLoop_inp (s : State) :
    operandLoop s (some 1) 1 [.position] =
      (s.inputOperand .position).map fun d => { vals := [], addr := some d } := by
  rw [operandLoop_destination]
  unfold State.inputOperand
  cases s.destination 1 <;> rfl

/-- The one operand of OUT is one round of the loop. -/
theorem operandLoop_out (s : State) (a : Mode) :
    operandLoop s none 1 [a] = (s.source 1 a).map fun v => { vals := [v], addr := none } := by
  rw [operandLoop_source (by simp)]
  cases s.source 1 a <;> rfl

/-! ### What the cycle does with the resolved operands -/

/-- `if op != 99 then IP := IP + width(op)`, unless the step is over (40_execute_cycle.md R69, R75). -/
def Effect.advanceBy (i : Instr) : Effect → State
  | .ended t => t
  | .completed t => if (i.opcode : Int) ≠ 99 then t.advance i.width else t

/-- The part of R69 after the operand loop has answered. -/
def finishCycle (i : Instr) (s : State) : Except Fault Resolved → State
  | .error f => s.raise f
  | .ok r => (execute i.opcode r s).advanceBy i

theorem cycleBody_of_fetch_error {s : State} {f : Fault} (h : s.fetch = .error f) : cycleBody s = s.raise f := by
  unfold cycleBody
  rcases State.fetch_eq_error_iff.1 h with hb | ⟨w, d, hw, hd, rfl⟩
  · rw [State.load_eq_error_iff.2 hb]
  · rw [State.load_eq_ok_iff.2 hw]
    simp only [← decode_map_opcodeAndModes, hd, Except.map]

/-- Where the word at `IP` decodes, the cycle looks up the instruction's own row and loops over its own modes. -/
theorem cycleBody_of_fetches {s : State} {i : Instr} (h : Fetches s i) :
    cycleBody s = finishCycle i s (operandLoop s i.dest 1 i.modes) := by
  obtain ⟨w, hw, hi⟩ := h
  unfold cycleBody
  rw [State.load_eq_ok_iff.2 hw]
  simp only [← decode_map_opcodeAndModes, hi, Except.map, opcodeAndModes, opcodeRow_opcode]
  cases operandLoop s i.dest 1 i.modes with
  | error f => rfl
  | ok r => unfold finishCycle; cases execute i.opcode r s <;> rfl

/-! ### The meanings are the cycle's -/

/-- ADD and MUL: resolve, `fit`, write, advance by 4 (41_arithmetic.md R80, R81). -/
theorem arithmetic_eq_finishCycle {op : Nat} {g : Int → Int → Int} {a b : Mode} {i : Instr} {s : State}
    (hne : (i.opcode : Int) ≠ 99) (hwidth : i.width = 4)
    (hexec : ∀ x : ArithOperands,
      execute i.opcode x.resolved s = writeFitted s op (g x.val1.toInt x.val2.toInt) x.addr) :
    arithmetic op g a b .position s = .next (finishCycle i s (operandLoop s (some 3) 1 [a, b, .position])) := by
  rw [operandLoop_arith]
  unfold arithmetic
  cases s.arithOperands a b .position with
  | error f => rfl
  | ok x =>
    simp only [Except.map, finishCycle, hexec, writeFitted, orRaise]
    cases fit s.config.arithOverflow op (g x.val1.toInt x.val2.toInt) with
    | error f => rfl
    | ok r => simp [Effect.advanceBy, hne, hwidth]

theorem execInp_eq_finishCycle (s : State) :
    execInp .position s = .next (finishCycle (.inp .position) s (operandLoop s (some 1) 1 [.position])) := by
  rw [operandLoop_inp]
  unfold execInp
  cases s.inputOperand .position with
  | error f => rfl
  | ok d =>
    simp only [Except.map, finishCycle, execute, orRaise]
    cases s.nextAnswer with
    | none => rfl
    | some answer => cases answer <;> rfl

theorem execOut_eq_finishCycle (a : Mode) (s : State) :
    execOut a s = .next (finishCycle (.out a) s (operandLoop s none 1 [a])) := by
  rw [operandLoop_out]
  unfold execOut
  cases s.source 1 a <;> rfl

theorem eq_position_of_isDestination {m : Mode} (h : m.isDestination = true) : m = .position := by
  cases m with
  | position => rfl
  | immediate => cases h

/-- On an instruction some word decodes to, `exec` is the operand loop and `execute` of R69. -/
theorem exec_eq_finishCycle {i : Instr} (s : State) (hwf : i.wf = true) :
    exec i s = .next (finishCycle i s (operandLoop s i.dest 1 i.modes)) := by
  cases i with
  | add a b c =>
    obtain rfl := eq_position_of_isDestination hwf
    exact arithmetic_eq_finishCycle (by decide : (1 : Int) ≠ 99) rfl fun _ => rfl
  | mul a b c =>
    obtain rfl := eq_position_of_isDestination hwf
    exact arithmetic_eq_finishCycle (by decide : (2 : Int) ≠ 99) rfl fun _ => rfl
  | inp a =>
    obtain rfl := eq_position_of_isDestination hwf
    exact execInp_eq_finishCycle s
  | out a => exact execOut_eq_finishCycle a s
  | hlt => rfl

theorem wf_of_fetches {s : State} {i : Instr} : Fetches s i → i.wf = true
  | ⟨_, _, hi⟩ => wf_of_decode hi

/-- A step is R69's cycle, in every state: at an unanswered pull both stand at the pull. -/
theorem step_eq_cycle (s : State) : step s = .next (cycle s) := by
  by_cases hrun : s.run = .running
  · have hcycle : cycle s = cycleBody s.start := by simp [cycle, hrun]
    rw [hcycle]
    cases hf : s.start.fetch with
    | error f =>
      rw [cycleBody_of_fetch_error hf]
      exact step_eq_next_iff.2 (.inr (.inl ⟨hrun, f, hf, rfl⟩))
    | ok i =>
      have hi := State.fetch_eq_ok_iff.1 hf
      rw [cycleBody_of_fetches hi]
      exact step_eq_next_iff.2 (.inr (.inr ⟨hrun, i, hf, exec_eq_finishCycle _ (wf_of_fetches hi)⟩))
  · exact step_eq_next_iff.2 (.inl ⟨hrun, by simp [cycle, hrun]⟩)

/-- Settles O7: the decoder is R54's loop, and each meaning is R69's operand loop and `execute` for its opcode row. -/
theorem stepFollowsTheCycle : Obligations.StepFollowsTheCycle :=
  fun s _ => step_eq_cycle s

end Sys2Proof.Machine
end

section
/-! SUPPORT. The ways an instruction can end (40_execute_cycle.md R74 to R76), and O36. -/

namespace Sys2Proof.Machine

/-- A source operand that resolves has a cell (40_execute_cycle.md R71). -/
theorem SourceIs.exists_operandIs {s : State} {k : Nat} {m : Mode} {v : Word} (h : SourceIs s k m v) :
    ∃ p, OperandIs s k p := by
  cases m with
  | position => exact h.imp fun _ hp => hp.1
  | immediate => exact ⟨v, h⟩

theorem SourceIs.ip_lt_len {s : State} {k : Nat} {m : Mode} {v : Word} (h : SourceIs s k m v) :
    s.ip + k < s.mem.len :=
  h.exists_operandIs.elim fun _ hp => hp.lt_len

theorem DestinationIs.ip_lt_len {s : State} {k d : Nat} : DestinationIs s k d → s.ip + k < s.mem.len
  | ⟨_, hp, _⟩ => hp.lt_len

/-- The five ways `exec i s` can end in `t`. -/
inductive ExecEnds (i : Instr) (s t : State) : Prop where
  /-- A fault before any effect. Halt has none. -/
  | faults (f : Fault) (hi : i ≠ .hlt) (ht : t = s.raise f)
  /-- The pull of an IN is answered with no value. -/
  | inputFaults (r : InputFailure) (hi : i = .inp .position) (ht : t = s.pullOne.raise (.inputFault r))
  /-- The pull of an IN is not answered. -/
  | waits (hi : i = .inp .position) (hdest : ∃ d, DestinationIs s 1 d) (hnone : s.nextAnswer = none) (ht : t = s.wait)
  /-- Halt. -/
  | halts (hi : i = .hlt) (ht : t = s.halt)
  /-- Any other instruction completes: `IP` passes its cells, all of which exist. -/
  | completes (hi : i ≠ .hlt) (hrun : t.run = s.run) (hstep : t.inStep = s.inStep) (hip : t.ip = s.ip + i.width)
      (hlen : t.ip ≤ t.mem.len)

theorem arithmetic_ends {i : Instr} {op : Nat} {g : Int → Int → Int} {a b c : Mode} {s t : State} (hne : i ≠ .hlt)
    (hwidth : i.width = 4) (h : arithmetic op g a b c s = .next t) : ExecEnds i s t := by
  rcases arithmetic_eq_next_iff.1 h with ⟨f, -, rfl⟩ | ⟨x, f, -, -, rfl⟩ | ⟨x, r, hx, -, rfl⟩
  · exact .faults f hne rfl
  · exact .faults f hne rfl
  · obtain ⟨-, -, -, hd⟩ := State.arithOperands_eq_ok_iff.1 hx
    exact .completes hne rfl rfl (by simp [hwidth]) hd.ip_lt_len

theorem execInp_ends {a : Mode} {s t : State} (h : execInp a s = .next t) : ExecEnds (.inp a) s t := by
  rcases execInp_eq_next_iff.1 h with ⟨f, -, rfl⟩ | ⟨d, hoperand, hnone, rfl⟩ | ⟨d, answer, hoperand, -, rfl⟩
  · exact .faults f (by simp) rfl
  · obtain ⟨rfl, hd⟩ := State.inputOperand_eq_ok_iff.1 hoperand
    exact .waits rfl ⟨d, hd⟩ hnone rfl
  · obtain ⟨rfl, hd⟩ := State.inputOperand_eq_ok_iff.1 hoperand
    cases answer with
    | value v => exact .completes (by simp) rfl rfl rfl hd.ip_lt_len
    | exhausted => exact .inputFaults .exhausted rfl rfl
    | malformed => exact .inputFaults .malformed rfl rfl

theorem execOut_ends {a : Mode} {s t : State} (h : execOut a s = .next t) : ExecEnds (.out a) s t := by
  rcases execOut_eq_next_iff.1 h with ⟨f, -, rfl⟩ | ⟨v, hv, rfl⟩
  · exact .faults f (by simp) rfl
  · exact .completes (by simp) rfl rfl rfl (State.source_eq_ok_iff.1 hv).ip_lt_len

/-- Every instruction ends in one of the five ways. -/
theorem exec_ends {i : Instr} {s t : State} (h : exec i s = .next t) : ExecEnds i s t := by
  cases i with
  | add a b c => exact arithmetic_ends (by simp) rfl h
  | mul a b c => exact arithmetic_ends (by simp) rfl h
  | inp a => exact execInp_ends h
  | out a => exact execOut_ends h
  | hlt => cases h; exact .halts rfl rfl

theorem width_of_arithmetic_opcode {i : Instr} (h : i.opcode = 1 ∨ i.opcode = 2) : i.width = 4 := by
  cases i <;> simp [Instr.opcode] at h <;> rfl

/-- Settles O36: by the ways an instruction can end; its last operand cell exists, so the next one is at most at `N`. -/
theorem pointerAdvancesByTheWidth : Obligations.PointerAdvancesByTheWidth := by
  intro s t i hrun hi hpull h
  rw [step_of_fetches hrun hi] at h
  cases exec_ends h with
  | faults f hne ht =>
    subst ht
    exact ⟨fun _ => rfl, fun hhlt => absurd hhlt hne, fun hrun' => absurd rfl hrun', fun _ hrun' => absurd rfl hrun'⟩
  | inputFaults r hin ht =>
    subst hin ht
    exact ⟨fun _ => rfl, nofun, fun hrun' => absurd rfl hrun', fun _ hrun' => absurd rfl hrun'⟩
  | waits hin hdest hnone ht =>
    subst hin
    exact absurd ⟨hrun, hi, hdest, State.nextAnswer_eq_none_iff.1 hnone⟩ hpull
  | halts hhlt ht =>
    subst hhlt ht
    exact ⟨fun _ => rfl, fun _ => ⟨rfl, rfl⟩, fun _ hne => absurd rfl hne, fun hop => absurd hop (by decide)⟩
  | completes hne hrun' hstep hip hlen =>
    have hrunning : t.run = .running := hrun'.trans hrun
    exact ⟨by simp [hrunning], fun hhlt => absurd hhlt hne, fun _ _ => ⟨hrunning, hip, hlen⟩,
      fun hop _ => hip.trans (by rw [width_of_arithmetic_opcode hop]; rfl)⟩

end Sys2Proof.Machine
end

section
/-! SUPPORT. What a step and a run return (40_execute_cycle.md R79), and O45. -/

namespace Sys2Proof.Machine

/-- A running step that is not over leaves `RUN`: it stands at a pull, and no fault and no Halt has ended the run. -/
theorem run_of_step_inStep {s t : State} (hrun : s.run = .running) (h : step s = .next t) (hin : t.inStep = true) :
    t.run = .running := by
  rcases step_eq_next_iff.1 h with ⟨hne, -⟩ | ⟨-, f, -, rfl⟩ | ⟨-, i, -, hexec⟩
  · exact absurd hrun hne
  · simp at hin
  · cases exec_ends hexec with
    | faults f hne ht => simp [ht] at hin
    | inputFaults r hi ht => simp [ht] at hin
    | waits hi hdest hnone ht => simpa [ht] using hrun
    | halts hi ht => simp [ht] at hin
    | completes hne hrun' hstep hip hlen => simp [hstep] at hin

theorem State.runResult_eq_none_iff {s : State} : s.runResult = none ↔ s.run = .running := by
  unfold State.runResult
  cases s.run <;> simp

theorem State.runResult_eq_ok_iff {s : State} : s.runResult = some .ok ↔ s.run = .halted := by
  unfold State.runResult
  cases s.run <;> simp

theorem State.runResult_eq_err_iff {s : State} {f : Option Fault} :
    s.runResult = some (.err f) ↔ s.run = .faulted ∧ s.fault = f := by
  unfold State.runResult
  cases s.run <;> simp

/-- A step that is over returns `RUN`, and `FAULT` when `Faulted`. -/
theorem stepResult_of_over {s t : State} (h : step s = .next t) (hover : t.inStep = false) :
    stepResult s = some (t.run, if t.run = .faulted then t.fault else none) := by
  simp [stepResult, stepState_eq_of_step h, hover]

/-- What a run answers, and the state it answers in: the result of a terminal state, or none yet in a running one. -/
def RunEnds (p : RunResult × State) : Prop :=
  p.2.runResult = some p.1 ∨ (p.2.run = .running ∧ (p.1 = .waiting ∨ p.1 = .aborted))

theorem runToCompletion_ends (k : Nat) (s : State) : RunEnds (runToCompletion k s) := by
  induction k generalizing s with
  | zero =>
    unfold runToCompletion
    cases hr : s.runResult with
    | some r => exact .inl hr
    | none =>
      have hrun := State.runResult_eq_none_iff.1 hr
      cases s.inStep
      · exact .inr ⟨hrun, .inr rfl⟩
      · exact .inr ⟨hrun, .inl rfl⟩
  | succ k ih =>
    unfold runToCompletion
    cases hr : s.runResult with
    | some r => exact .inl hr
    | none =>
      have hrun := State.runResult_eq_none_iff.1 hr
      cases hin : (stepState s).inStep
      · simpa [hin] using ih (stepState s)
      · exact .inr ⟨run_of_step_inStep hrun (step_eq_next_stepState s) hin, .inl rfl⟩

/-- A result `Ok` or `Err` is that of the terminal state the run ended in, and a terminal state's is returned. -/
theorem runToCompletion_eq_iff {k : Nat} {s : State} {r : RunResult} (hr : r = .ok ∨ ∃ f, r = .err f) :
    (runToCompletion k s).1 = r ↔ (runToCompletion k s).2.runResult = some r := by
  rcases runToCompletion_ends k s with hres | ⟨hrun, hres⟩
  · simp [hres]
  · rw [State.runResult_eq_none_iff.2 hrun]
    rcases hr with rfl | ⟨f, rfl⟩ <;> rcases hres with hres | hres <;> simp [hres]

theorem runToCompletion_eq_ok_iff {k : Nat} {s : State} :
    (runToCompletion k s).1 = .ok ↔ (runToCompletion k s).2.run = .halted :=
  (runToCompletion_eq_iff (.inl rfl)).trans State.runResult_eq_ok_iff

theorem runToCompletion_eq_err_iff {k : Nat} {s : State} {f : Option Fault} :
    (runToCompletion k s).1 = .err f ↔
      (runToCompletion k s).2.run = .faulted ∧ (runToCompletion k s).2.fault = f :=
  (runToCompletion_eq_iff (.inr ⟨f, rfl⟩)).trans State.runResult_eq_err_iff

/-- Settles O45: a run answers the result of the terminal state it ends in, by induction on its steps. -/
theorem stepAndRunResults : Obligations.StepAndRunResults :=
  ⟨fun _ _ h hover => ⟨_, stepResult_of_over h hover, fun hf => if_pos hf⟩,
    fun _ _ => ⟨runToCompletion_eq_ok_iff.symm, fun hf => runToCompletion_eq_err_iff.2 ⟨hf, rfl⟩,
      fun _ => runToCompletion_eq_err_iff.1⟩⟩

end Sys2Proof.Machine
end

section
/-! SUPPORT. A terminal state is inert (40_execute_cycle.md R65), what the host peeks between steps, and O29. -/

namespace Sys2Proof.Machine

theorem step_of_not_running {s : State} (hrun : s.run ≠ .running) : step s = .next s :=
  step_eq_next_iff.2 (.inl ⟨hrun, rfl⟩)

/-- No number of steps leaves a terminal state: the one step it has answers the state itself. -/
theorem runSteps_of_not_running {s : State} (hrun : s.run ≠ .running) (k : Nat) : runSteps k s = s :=
  runSteps_keeps (P := (· = s))
    (fun u v hu h => by
      subst hu
      cases (step_of_not_running hrun).symm.trans h
      rfl)
    k rfl

theorem peek_of_inBounds {s : State} {a : Int} (hstep : s.inStep = false) (ha : s.mem.InBounds a) :
    peek a s = .ok (s.mem.get a.toNat) :=
  (State.betweenSteps_of_not_inStep hstep).trans (if_pos ha)

/-- A step of HLT only starts and sets `RUN` (43_halt.md R90). -/
theorem step_of_fetches_hlt {s : State} (hrun : s.run = .running) (hi : Fetches s .hlt) :
    step s = .next s.start.halt :=
  step_of_fetches hrun hi

/-- Settles O29: HLT ends its step in a terminal state, which is inert and between steps, and a run answers `Ok` for
`Halted` alone. -/
theorem afterHaltNothingHappens : Obligations.AfterHaltNothingHappens := by
  refine ⟨fun s hrun hi => ?_, fun _ _ => runToCompletion_eq_ok_iff⟩
  have hterminal : s.start.halt.run ≠ .running := by simp
  exact ⟨s.start.halt, step_of_fetches_hlt hrun hi, rfl, rfl, runSteps_of_not_running hterminal,
    fun _ ha => peek_of_inBounds rfl ha⟩

end Sys2Proof.Machine
end

section
/-! SUPPORT. A step on a word whose opcode value is no opcode (60_exceptions.md R93), and O10. -/

namespace Sys2Proof.Machine

/-- A running step on a word with no opcode is the step of its decode fault, whatever the word's sign. -/
theorem step_of_unknownOpcode {s : State} {w : Word} (hrun : s.run = .running) (hw : CellHolds s s.ip w)
    (hcode : opcodeValue w ∉ ({1, 2, 3, 4, 99} : Set Int)) :
    step s = .next (s.start.raise (.unknownOpcode (opcodeValue w))) :=
  step_of_decode_error hrun hw (decode_eq_unknownOpcode_iff.2 ⟨hcode, rfl⟩)

/-- Settles O10: the word's decode fault is `UnknownOpcode(w rem 100)`, and taking a fault writes no cell. -/
theorem unknownOpcodeFaults : Obligations.UnknownOpcodeFaults :=
  fun _ _ hrun hw hcode => ⟨_, step_of_unknownOpcode hrun hw hcode, rfl, rfl, rfl⟩

end Sys2Proof.Machine
end

section
/-! SUPPORT. The fields of a constructed instance (70_reset_and_hazards.md R115), and O33. -/

namespace Sys2Proof.Machine

@[simp] theorem construct_mem (p : List Word) (src : InputSource) (cfg : Config) :
    (construct p src cfg).mem = Memory.ofProgram p := rfl

theorem construct_mem_len (p : List Word) (src : InputSource) (cfg : Config) :
    (construct p src cfg).mem.len = p.length := by
  rw [construct_mem, Memory.ofProgram_len]

theorem construct_mem_get {p : List Word} (src : InputSource) (cfg : Config) {i : Nat} (h : i < p.length) :
    (construct p src cfg).mem.get i = p[i] := by
  rw [construct_mem, Memory.get_ofProgram h]

/-- `FAULT` is `(None, 0)` while no fault is taken (10_state.md R20). -/
theorem State.faultRecord_of_fault_eq_none {s : State} (h : s.fault = none) : s.faultRecord = (0, 0) := by
  rw [State.faultRecord, h]

/-- Settles O33: the memory is the program's, cell by cell, and every other field is the one R115 names. -/
theorem constructionState : Obligations.ConstructionState := by
  rintro p src cfg s rfl
  exact ⟨construct_mem_len p src cfg, fun _ h => construct_mem_get src cfg h, rfl, rfl, rfl,
    State.faultRecord_of_fault_eq_none rfl, rfl, rfl, rfl, rfl⟩

end Sys2Proof.Machine
end

section
/-! SUPPORT. The mode digits of a word and of the canonical word (30_encoding.md R46, R50, R60), and O1, O2. -/

namespace Sys2Proof

/-- The digits of `w` from digit `k` on name the modes of the list, in order (30_encoding.md R46). -/
def ModesAt (w : Nat) : Nat → List Mode → Prop
  | _, [] => True
  | k, m :: ms => digit w k = m.digit ∧ ModesAt w (k + 1) ms

@[simp] theorem modesAt_nil (w k : Nat) : ModesAt w k [] ↔ True := Iff.rfl

@[simp] theorem modesAt_cons (w k : Nat) (m : Mode) (ms : List Mode) :
    ModesAt w k (m :: ms) ↔ digit w k = m.digit ∧ ModesAt w (k + 1) ms := Iff.rfl

theorem Mode.digit_lt (m : Mode) : m.digit < 10 := by
  cases m <;> decide

/-- The digits that name a mode list are, as a number, its `modeDigits`. -/
theorem modesAt_iff_modeDigits {w : Nat} {ms : List Mode} :
    ∀ {k}, ModesAt w k ms ↔ w / 10 ^ k % 10 ^ ms.length = modeDigits ms := by
  induction ms with
  | nil => intro k; simp [modeDigits, Nat.mod_one]
  | cons m ms ih =>
    intro k
    have hm := m.digit_lt
    have hw := digit_lt w k
    have hsplit : w / 10 ^ k % 10 ^ (m :: ms).length = digit w k + 10 * (w / 10 ^ (k + 1) % 10 ^ ms.length) := by
      rw [List.length_cons, pow_succ', Nat.mod_mul, Nat.div_div_eq_div_mul, ← pow_succ, digit]
    rw [modesAt_cons, ih, hsplit, modeDigits]
    omega

/-- A word decodes to the well-formed instructions with its opcode whose modes its digits from digit 2 on name. -/
theorem decode_eq_ok_iff_modesAt {w : Word} {i : Instr} :
    decode w = .ok i ↔ i.wf = true ∧ opcodeValue w = i.opcode ∧ ModesAt w.toInt.toNat 2 i.modes := by
  rw [decode_eq_ok_iff]
  cases i with
  | add a b c => cases c <;> simp [Instr.wf, Mode.isDestination, Instr.opcode, Instr.modes, Mode.digit]
  | mul a b c => cases c <;> simp [Instr.wf, Mode.isDestination, Instr.opcode, Instr.modes, Mode.digit]
  | inp a => cases a <;> simp [Instr.wf, Mode.isDestination, Instr.opcode, Instr.modes, Mode.digit]
  | out a => simp [Instr.wf, Instr.opcode, Instr.modes]
  | hlt => simp [Instr.wf, Instr.opcode, Instr.modes]

theorem Instr.opcode_lt (i : Instr) : i.opcode < 100 := by
  cases i <;> simp [Instr.opcode]

theorem Instr.opcode_pos (i : Instr) : 0 < i.opcode := by
  cases i <;> simp [Instr.opcode]

theorem Instr.width_eq_length_modes (i : Instr) : i.width = i.modes.length + 1 := by
  cases i <;> rfl

/-- The `width + 1` low digits of a word are the canonical word's exactly when its opcode and mode digits are. -/
theorem mod_eq_encode_iff {w : Word} {i : Instr} (hw : 0 ≤ w.toInt) :
    w.toInt % 10 ^ (i.width + 1) = (encode i).toInt ↔
      opcodeValue w = i.opcode ∧ ModesAt w.toInt.toNat 2 i.modes := by
  obtain ⟨n, hn⟩ := Int.eq_ofNat_of_zero_le hw
  have hsplit : n % 10 ^ (i.width + 1) = n % 100 + 100 * (n / 10 ^ 2 % 10 ^ i.modes.length) := by
    rw [i.width_eq_length_modes, Nat.add_assoc, Nat.add_comm, pow_add, Nat.mod_mul]
    norm_num
  have hop := i.opcode_lt
  rw [toInt_encode, opcodeValue_of_nonneg hw, modesAt_iff_modeDigits, hn, Int.toNat_natCast]
  norm_cast
  rw [hsplit]
  omega

/-- Every word that decodes, against the canonical word of what it decodes to (30_encoding.md R60). -/
theorem decode_eq_ok_iff_encode {w : Word} {i : Instr} :
    decode w = .ok i ↔ i.wf = true ∧ 0 ≤ w.toInt ∧ w.toInt % 10 ^ (i.width + 1) = (encode i).toInt := by
  rw [decode_eq_ok_iff_modesAt]
  refine and_congr_right fun _ => ⟨fun h => ?_, fun ⟨hw, h⟩ => (mod_eq_encode_iff hw).1 h⟩
  have hw := toInt_nonneg_of_opcode (by exact_mod_cast i.opcode_pos) h.1
  exact ⟨hw, (mod_eq_encode_iff hw).2 h⟩

/-- A mode list takes one digit a mode. -/
theorem modeDigits_lt (ms : List Mode) : modeDigits ms < 10 ^ ms.length := by
  induction ms with
  | nil => decide
  | cons m ms ih =>
    have hm := m.digit_lt
    rw [modeDigits, List.length_cons, pow_succ]
    omega

/-- The canonical word has no digit above those the decoder reads (30_encoding.md R50). -/
theorem encode_mod_self (i : Instr) : (encode i).toInt % 10 ^ (i.width + 1) = (encode i).toInt := by
  have hop := i.opcode_lt
  have hmodes := modeDigits_lt i.modes
  rw [toInt_encode, i.width_eq_length_modes]
  norm_cast
  refine Nat.mod_eq_of_lt ?_
  rw [pow_succ, pow_succ]
  omega

theorem encode_nonneg (i : Instr) : 0 ≤ (encode i).toInt := by
  rw [toInt_encode]
  exact Int.natCast_nonneg _

/-- Settles O2: the low `width + 1` digits of a word are its opcode and the mode digits the decoder reads, and the
canonical word has no others. -/
theorem decodeInvertsEncode : Obligations.DecodeInvertsEncode :=
  ⟨fun i hwf => decode_eq_ok_iff_encode.2 ⟨hwf, encode_nonneg i, encode_mod_self i⟩, fun _ _ => decode_eq_ok_iff_encode⟩

/-- Settles O1: twelve closed words, each run through the decoder. -/
theorem specWordsDecode : Obligations.SpecWordsDecode := by
  unfold Obligations.SpecWordsDecode
  decide

end Sys2Proof
end

section
/-! SUPPORT. The payload of every fault the core raises (60_exceptions.md R92), the invariant through a step, and O32. -/

namespace Sys2Proof.Machine

/-! ### Fault payloads -/

theorem legal_of_sourceFault {s : State} {k : Nat} {m : Mode} {f : Fault} : SourceFault s k m f → f.Legal s
  | .inl ⟨hb, hf⟩ => hf ▸ hb
  | .inr ⟨_, _, _, hb, hf⟩ => hf ▸ hb

theorem legal_of_destinationFault {s : State} {k : Nat} {f : Fault} : DestinationFault s k f → f.Legal s
  | .inl ⟨hb, hf⟩ => hf ▸ hb
  | .inr ⟨_, _, hb, hf⟩ => hf ▸ hb

/-- The opcode value of a word lies between -99 and 99 (30_encoding.md R47). -/
theorem opcodeValue_bounds (w : Word) : -99 ≤ opcodeValue w ∧ opcodeValue w ≤ 99 := by
  have hlo := Int.lt_tmod_of_pos w.toInt (by norm_num : (0 : Int) < 100)
  have hhi := Int.tmod_lt_of_pos w.toInt (by norm_num : (0 : Int) < 100)
  unfold opcodeValue
  omega

theorem legal_ofDecode {s : State} {w : Word} {d : DecodeFault} (h : decode w = .error d) :
    (Fault.ofDecode d).Legal s := by
  cases d with
  | unknownOpcode c =>
    obtain ⟨hnot, rfl⟩ := decode_eq_unknownOpcode_iff.1 h
    obtain ⟨hlo, hhi⟩ := opcodeValue_bounds w
    simp only [Set.mem_insert_iff, Set.mem_singleton_iff, not_or] at hnot
    exact ⟨hlo, hhi, hnot⟩
  | unknownMode n =>
    obtain ⟨h2, h9, -⟩ := digit_of_decode_unknownMode h
    exact ⟨h2, h9⟩
  | immediateDestination k =>
    rcases digit_of_decode_immediateDestination h with ⟨rfl, -⟩ | ⟨rfl, -⟩
    · exact .inr rfl
    · exact .inl rfl

theorem legal_of_fetch_eq_error {s : State} {f : Fault} (h : s.fetch = .error f) : f.Legal s := by
  rcases State.fetch_eq_error_iff.1 h with ⟨hb, rfl⟩ | ⟨w, d, -, hd, rfl⟩
  · exact hb
  · exact legal_ofDecode hd

theorem legal_of_arithOperands_eq_error {s : State} {a b c : Mode} {f : Fault}
    (h : s.arithOperands a b c = .error f) : f.Legal s := by
  rcases State.arithOperands_eq_error_iff.1 h with ⟨-, rfl⟩ | ⟨-, h1 | ⟨v1, -, h2 | ⟨v2, -, h3⟩⟩⟩
  · exact .inr rfl
  · exact legal_of_sourceFault h1
  · exact legal_of_sourceFault h2
  · exact legal_of_destinationFault h3

theorem legal_of_inputOperand_eq_error {s : State} {a : Mode} {f : Fault} (h : s.inputOperand a = .error f) :
    f.Legal s := by
  rcases State.inputOperand_eq_error_iff.1 h with ⟨-, rfl⟩ | ⟨-, hd⟩
  · exact .inl rfl
  · exact legal_of_destinationFault hd

theorem legal_of_fit_eq_error {s : State} {op : Nat} {r : Int} {f : Fault} (hop : op = 1 ∨ op = 2)
    (h : fit s.config.arithOverflow op r = .error f) : f.Legal s := by
  obtain ⟨-, hpolicy, rfl⟩ := fit_eq_error_iff.1 h
  exact ⟨hop, hpolicy⟩

/-! ### The invariant inside a step -/

/-- What holds of an instance while its step runs: `StateInv` with `STARTED` set, nothing recorded and no wait. -/
structure MidStep (s : State) : Prop where
  memory : s.mem.wf = true
  pointer : s.ip ≤ s.mem.len
  running : s.run = .running
  noFault : s.fault = none
  started : s.started = true
  source : s.input.interactive = true → s.pulled ≤ s.input.answers.length
  notWaiting : s.inStep = false

namespace MidStep

variable {s : State}

/-- A running instance that meets the invariant enters its step (40_execute_cycle.md R67). -/
theorem of_stateInv (h : StateInv s) (hrun : s.run = .running) : MidStep s.start where
  memory := h.memory
  pointer := h.pointer
  running := hrun
  noFault := by
    by_contra hf
    exact absurd (hrun.symm.trans (h.record.2 hf)) (by decide)
  started := rfl
  source := h.source
  notWaiting := rfl

theorem store (h : MidStep s) {d : Nat} (hd : d < s.mem.len) (v : Word) : MidStep (s.store d v) :=
  { h with memory := Memory.set_wf v hd h.memory }

theorem advance (h : MidStep s) {n : Nat} (hn : s.ip + n ≤ s.mem.len) : MidStep (s.advance n) :=
  { h with pointer := hn }

theorem emit (h : MidStep s) (v : Word) : MidStep (s.emit v) :=
  { h with }

theorem pullOne (h : MidStep s) (hlt : s.input.interactive = true → s.pulled < s.input.answers.length) :
    MidStep s.pullOne :=
  { h with source := hlt }

/-- A step may end as it stands. -/
theorem stateInv (h : MidStep s) : StateInv s where
  memory := h.memory
  pointer := h.pointer
  record := by simp [h.running, h.noFault]
  legal f hf := by simp [h.noFault] at hf
  fresh hs := by simp [h.started] at hs
  source := h.source
  progress hp := by simp [h.notWaiting] at hp

theorem stateInv_raise (h : MidStep s) {f : Fault} (hf : f.Legal s) : StateInv (s.raise f) where
  memory := h.memory
  pointer := h.pointer
  record := by simp
  legal g hg := by cases hg; exact hf
  fresh hs := by simp [h.started] at hs
  source := h.source
  progress hp := by simp [h.notWaiting] at hp

theorem stateInv_halt (h : MidStep s) : StateInv s.halt where
  memory := h.memory
  pointer := h.pointer
  record := by simp [h.noFault]
  legal f hf := by simp [h.noFault] at hf
  fresh hs := by simp [h.started] at hs
  source := h.source
  progress hp := by simp [h.notWaiting] at hp

/-- An IN whose destination resolves may wait at the pull of an interactive source (10_state.md R22). -/
theorem stateInv_wait (h : MidStep s) (hin : Fetches s (.inp .position)) (hd : ∃ d, DestinationIs s 1 d)
    (hi : s.input.interactive = true) : StateInv s.wait :=
  { h.stateInv with progress := fun _ => ⟨h.running, h.started, hin, hd, hi⟩ }

/-! ### The invariant through each meaning -/

theorem stateInv_of_arithmetic {op : Nat} {g : Int → Int → Int} {a b c : Mode} {t : State} (h : MidStep s)
    (hop : op = 1 ∨ op = 2) (hexec : arithmetic op g a b c s = .next t) : StateInv t := by
  rcases arithmetic_eq_next_iff.1 hexec with ⟨f, hx, rfl⟩ | ⟨x, f, -, hr, rfl⟩ | ⟨x, r, hx, -, rfl⟩
  · exact h.stateInv_raise (legal_of_arithOperands_eq_error hx)
  · exact h.stateInv_raise (legal_of_fit_eq_error hop hr)
  · obtain ⟨-, -, -, hd⟩ := State.arithOperands_eq_ok_iff.1 hx
    exact ((h.store hd.lt_len r).advance hd.ip_lt_len).stateInv

/-- A pull that is answered consumes an answer there is (10_state.md R24). -/
theorem stateInv_receive {d : Nat} {answer : InputAnswer} (h : MidStep s) (hd : DestinationIs s 1 d)
    (hanswer : s.nextAnswer = some answer) : StateInv (receive d answer s) := by
  have hpull := h.pullOne fun hi => InputSource.answerAt_lt hi hanswer
  cases answer with
  | value v => exact ((hpull.store hd.lt_len v).advance hd.ip_lt_len).stateInv
  | exhausted => exact hpull.stateInv_raise trivial
  | malformed => exact hpull.stateInv_raise trivial

theorem stateInv_of_execInp {a : Mode} {t : State} (h : MidStep s) (hfetch : Fetches s (.inp a)) (hexec : execInp a s = .next t) :
    StateInv t := by
  rcases execInp_eq_next_iff.1 hexec with ⟨f, hoperand, rfl⟩ | ⟨d, hoperand, hnone, rfl⟩ |
    ⟨d, answer, hoperand, hanswer, rfl⟩
  · exact h.stateInv_raise (legal_of_inputOperand_eq_error hoperand)
  · obtain ⟨rfl, hd⟩ := State.inputOperand_eq_ok_iff.1 hoperand
    exact h.stateInv_wait hfetch ⟨d, hd⟩ (State.nextAnswer_eq_none_iff.1 hnone).1
  · exact h.stateInv_receive (State.inputOperand_eq_ok_iff.1 hoperand).2 hanswer

theorem stateInv_of_execOut {a : Mode} {t : State} (h : MidStep s) (hexec : execOut a s = .next t) : StateInv t := by
  rcases execOut_eq_next_iff.1 hexec with ⟨f, hv, rfl⟩ | ⟨v, hv, rfl⟩
  · exact h.stateInv_raise (legal_of_sourceFault (State.source_eq_error_iff.1 hv))
  · exact ((h.emit v).advance (State.source_eq_ok_iff.1 hv).ip_lt_len).stateInv

theorem stateInv_of_exec {i : Instr} {t : State} (h : MidStep s) (hfetch : Fetches s i) (hexec : exec i s = .next t) :
    StateInv t := by
  cases i with
  | add a b c => exact h.stateInv_of_arithmetic (.inl rfl) hexec
  | mul a b c => exact h.stateInv_of_arithmetic (.inr rfl) hexec
  | inp a => exact h.stateInv_of_execInp hfetch hexec
  | out a => exact h.stateInv_of_execOut hexec
  | hlt => cases hexec; exact h.stateInv_halt

end MidStep

/-- Settles O32: a running instance enters its step in `MidStep`, which each operation keeps or ends in `StateInv`. -/
theorem everyStepKeepsTheInvariant : Obligations.EveryStepKeepsTheInvariant := by
  intro s t h hstep
  rcases step_eq_next_iff.1 hstep with ⟨-, rfl⟩ | ⟨hrun, f, hf, rfl⟩ | ⟨hrun, i, hi, hexec⟩
  · exact h
  · exact (MidStep.of_stateInv h hrun).stateInv_raise (legal_of_fetch_eq_error hf)
  · exact (MidStep.of_stateInv h hrun).stateInv_of_exec (State.fetch_eq_ok_iff.1 hi) hexec

end Sys2Proof.Machine
end

section
/-! SUPPORT. ADD and MUL with resolved operands (41_arithmetic.md R80 to R84), and O13 to O18. -/

namespace Sys2Proof.Machine

/-! ### The result that is stored -/

theorem fitsCell_toInt (v : Word) : FitsCell v.toInt := by
  have hlo := BitVec.le_toInt v
  have hhi := BitVec.toInt_lt (x := v)
  unfold FitsCell minCell maxCell
  omega

/-- A value that is a cell's already is stored as it is, whatever the parameter. -/
theorem fit_toInt {policy : ArithOverflow} {op : Nat} (v : Word) : fit policy op v.toInt = .ok v := by
  rw [fit_of_fits (fitsCell_toInt v), BitVec.ofInt_toInt]

theorem wrapCell_of_fits {r : Int} (h : FitsCell r) : wrapCell r = r := by
  unfold FitsCell minCell maxCell at h
  unfold wrapCell
  omega

/-- With `wrap` every exact result is stored, wrapped; one that fits is its own wrapped value (41_arithmetic.md R82). -/
theorem exists_fit_wrap (op : Nat) (r : Int) : ∃ v : Word, fit .wrap op r = .ok v ∧ v.toInt = wrapCell r := by
  by_cases h : FitsCell r
  · exact ⟨_, fit_of_fits h, (toInt_ofInt_of_fits h).trans (wrapCell_of_fits h).symm⟩
  · exact ⟨_, fit_wrap h, toInt_ofInt_of_fits (wrapCell_fits r)⟩

/-! ### ADD and MUL of operands that resolve -/

section OperandsResolved

variable {s : State} {a b : Mode} {v1 v2 : Word} {d op : Nat} {g : Int → Int → Int}

theorem arithOperands_of_resolved (h1 : SourceIs s 1 a v1) (h2 : SourceIs s 2 b v2) (hd : DestinationIs s 3 d) :
    s.arithOperands a b .position = .ok { val1 := v1, val2 := v2, addr := d } :=
  State.arithOperands_eq_ok_iff.2 ⟨rfl, h1, h2, hd⟩

theorem arithmetic_of_fit_eq_ok {r : Word} (h1 : SourceIs s 1 a v1) (h2 : SourceIs s 2 b v2)
    (hd : DestinationIs s 3 d) (hr : fit s.config.arithOverflow op (g v1.toInt v2.toInt) = .ok r) :
    arithmetic op g a b .position s = .next ((s.store d r).advance 4) :=
  arithmetic_eq_next_iff.2 (.inr (.inr ⟨_, r, arithOperands_of_resolved h1 h2 hd, hr, rfl⟩))

theorem arithmetic_of_fit_eq_error {f : Fault} (h1 : SourceIs s 1 a v1) (h2 : SourceIs s 2 b v2)
    (hd : DestinationIs s 3 d) (hr : fit s.config.arithOverflow op (g v1.toInt v2.toInt) = .error f) :
    arithmetic op g a b .position s = .next (s.raise f) :=
  arithmetic_eq_next_iff.2 (.inr (.inl ⟨_, f, arithOperands_of_resolved h1 h2 hd, hr, rfl⟩))

/-- An exact result that fits is stored (41_arithmetic.md R80, R81). -/
theorem arithmetic_stores_exact (h1 : SourceIs s 1 a v1) (h2 : SourceIs s 2 b v2) (hd : DestinationIs s 3 d)
    (hfits : FitsCell (g v1.toInt v2.toInt)) :
    ∃ r : Word, r.toInt = g v1.toInt v2.toInt ∧ (s.mem.set d r).get d = r ∧
      arithmetic op g a b .position s = .next ((s.store d r).advance 4) :=
  ⟨_, toInt_ofInt_of_fits hfits, Memory.get_set_same .., arithmetic_of_fit_eq_ok h1 h2 hd (fit_of_fits hfits)⟩

/-- With `fault` a result outside `int32` is reported with the opcode (41_arithmetic.md R82). -/
theorem arithmetic_overflow_faults (hpolicy : s.config.arithOverflow = .fault) (h1 : SourceIs s 1 a v1)
    (h2 : SourceIs s 2 b v2) (hd : DestinationIs s 3 d) (hfits : ¬ FitsCell (g v1.toInt v2.toInt)) :
    arithmetic op g a b .position s = .next (s.raise (.arithmeticOverflow op)) :=
  arithmetic_of_fit_eq_error h1 h2 hd (by rw [hpolicy, fit_fault hfits])

/-- With `wrap` the wrapped result is stored (41_arithmetic.md R82). -/
theorem arithmetic_wraps (op : Nat) (hpolicy : s.config.arithOverflow = .wrap) (h1 : SourceIs s 1 a v1)
    (h2 : SourceIs s 2 b v2) (hd : DestinationIs s 3 d) :
    ∃ r : Word, r.toInt = wrapCell (g v1.toInt v2.toInt) ∧
      arithmetic op g a b .position s = .next ((s.store d r).advance 4) := by
  obtain ⟨r, hr, hwrap⟩ := exists_fit_wrap op (g v1.toInt v2.toInt)
  exact ⟨r, hwrap, arithmetic_of_fit_eq_ok h1 h2 hd (by rw [hpolicy, hr])⟩

/-- An exact result that is the value of the cell `v` stores `v`, whatever the parameter. -/
theorem arithmetic_stores_cell {v : Word} (h1 : SourceIs s 1 a v1) (h2 : SourceIs s 2 b v2)
    (hd : DestinationIs s 3 d) (hv : g v1.toInt v2.toInt = v.toInt) :
    arithmetic op g a b .position s = .next ((s.store d v).advance 4) :=
  arithmetic_of_fit_eq_ok h1 h2 hd (by rw [hv, fit_toInt])

/-- With a commutative operation, two instances whose source values are swapped end alike: the same result stored, or the
same overflow raised. -/
theorem arithmetic_swap {s' t t' : State} {a' b' : Mode} (hg : ∀ x y, g x y = g y x) (hcfg : s'.config = s.config)
    (h1 : SourceIs s 1 a v1) (h2 : SourceIs s 2 b v2) (hd : DestinationIs s 3 d)
    (h1' : SourceIs s' 1 a' v2) (h2' : SourceIs s' 2 b' v1) (hd' : DestinationIs s' 3 d)
    (ht : arithmetic op g a b .position s = .next t) (ht' : arithmetic op g a' b' .position s' = .next t') :
    (t.mem.get d = t'.mem.get d ∧ t.run = s.run ∧ t'.run = s'.run) ∨
      (t = faultedWith s (.arithmeticOverflow op) ∧ t' = faultedWith s' (.arithmeticOverflow op)) := by
  have hsame : fit s'.config.arithOverflow op (g v2.toInt v1.toInt) =
      fit s.config.arithOverflow op (g v1.toInt v2.toInt) := by rw [hcfg, hg]
  cases hr : fit s.config.arithOverflow op (g v1.toInt v2.toInt) with
  | ok r =>
    cases (arithmetic_of_fit_eq_ok h1 h2 hd hr).symm.trans ht
    cases (arithmetic_of_fit_eq_ok h1' h2' hd' (hsame.trans hr)).symm.trans ht'
    exact .inl ⟨by simp, rfl, rfl⟩
  | error f =>
    cases (arithmetic_of_fit_eq_error h1 h2 hd hr).symm.trans ht
    cases (arithmetic_of_fit_eq_error h1' h2' hd' (hsame.trans hr)).symm.trans ht'
    obtain ⟨-, -, rfl⟩ := fit_eq_error_iff.1 hr
    exact .inr ⟨rfl, rfl⟩

end OperandsResolved

/-- Settles O13: the exact sum fits its cell, so `fit` stores it. -/
theorem addStoresExactSum : Obligations.AddStoresExactSum :=
  fun _ _ _ _ _ _ h1 h2 hd hfits => arithmetic_stores_exact h1 h2 hd hfits

/-- Settles O14: the exact product fits its cell, so `fit` stores it. -/
theorem mulStoresExactProduct : Obligations.MulStoresExactProduct :=
  fun _ _ _ _ _ _ h1 h2 hd hfits => arithmetic_stores_exact h1 h2 hd hfits

/-- Settles O15: `fit` reports the opcode that ADD and MUL give it. -/
theorem overflowFaultsWhenSoConfigured : Obligations.OverflowFaultsWhenSoConfigured :=
  fun _ _ _ _ _ _ hpolicy h1 h2 hd =>
    ⟨arithmetic_overflow_faults hpolicy h1 h2 hd, arithmetic_overflow_faults hpolicy h1 h2 hd⟩

/-- Settles O16: the wrapped value always fits its cell, and is the exact result where that fits. -/
theorem overflowWrapsWhenSoConfigured : Obligations.OverflowWrapsWhenSoConfigured :=
  fun _ _ _ _ _ _ hpolicy h1 h2 hd =>
    ⟨arithmetic_wraps 1 hpolicy h1 h2 hd, arithmetic_wraps 2 hpolicy h1 h2 hd⟩

/-- What ADD and MUL share (41_arithmetic.md R84): `exec` of either is `arithmetic`. -/
theorem exec_eq_arithmetic {i : Instr} {a b c : Mode} (hi : i = .add a b c ∨ i = .mul a b c) :
    ∃ op g, exec i = arithmetic op g a b c := by
  rcases hi with rfl | rfl
  · exact ⟨1, _, rfl⟩
  · exact ⟨2, _, rfl⟩

/-- A fault of the operands is the outcome of ADD and of MUL. -/
theorem exec_of_arithOperands_error {i : Instr} {a b c : Mode} {s : State} {f : Fault}
    (hi : i = .add a b c ∨ i = .mul a b c) (h : s.arithOperands a b c = .error f) :
    exec i s = .next (s.raise f) := by
  obtain ⟨op, g, hexec⟩ := exec_eq_arithmetic hi
  rw [hexec]
  exact arithmetic_eq_next_iff.2 (.inl ⟨f, h, rfl⟩)

/-- The operands fault with the first of their faults in operand order (60_exceptions.md R102, item 4). -/
theorem arithOperands_eq_first_fault {s : State} {a b : Mode} {f : Fault}
    (h : SourceFault s 1 a f ∨ (∃ v1, SourceIs s 1 a v1 ∧ SourceFault s 2 b f) ∨
      ∃ v1 v2, SourceIs s 1 a v1 ∧ SourceIs s 2 b v2 ∧ DestinationFault s 3 f) :
    s.arithOperands a b .position = .error f := by
  refine State.arithOperands_eq_error_iff.2 (.inr ⟨rfl, ?_⟩)
  rcases h with h1 | ⟨v1, h1, h2⟩ | ⟨v1, v2, h1, h2, h3⟩
  · exact .inl h1
  · exact .inr ⟨v1, h1, .inl h2⟩
  · exact .inr ⟨v1, h1, .inr ⟨v2, h2, h3⟩⟩

/-- Settles O17: the operands are resolved in order, and the first fault ends the step. -/
theorem arithmeticReportsTheFirstOperandFault : Obligations.ArithmeticReportsTheFirstOperandFault :=
  fun _ _ _ _ _ hi h => exec_of_arithOperands_error hi (arithOperands_eq_first_fault h)

/-- Settles O18: an identity's exact result is the other operand's cell, and `fit` sees the exact result alone. -/
theorem arithmeticIdentitiesAndCommutativity : Obligations.ArithmeticIdentitiesAndCommutativity := by
  constructor
  · intro s a b v1 v2 d h1 h2 hd
    have h0 : (0 : Word).toInt = 0 := by decide
    have hone : (1 : Word).toInt = 1 := by decide
    refine ⟨?_, ?_, ?_, ?_⟩
    · rintro rfl
      exact ⟨arithmetic_stores_cell h1 h2 hd (by rw [h0, zero_add]),
        arithmetic_stores_cell h1 h2 hd (by rw [h0, zero_mul])⟩
    · rintro rfl
      exact ⟨arithmetic_stores_cell h1 h2 hd (by rw [h0, add_zero]),
        arithmetic_stores_cell h1 h2 hd (by rw [h0, mul_zero])⟩
    · rintro rfl
      exact arithmetic_stores_cell h1 h2 hd (by rw [hone, one_mul])
    · rintro rfl
      exact arithmetic_stores_cell h1 h2 hd (by rw [hone, mul_one])
  · intro s s' t t' a b a' b' v1 v2 d hcfg h1 h2 hd h1' h2' hd'
    exact ⟨arithmetic_swap Int.add_comm hcfg h1 h2 hd h1' h2' hd',
      arithmetic_swap Int.mul_comm hcfg h1 h2 hd h1' h2' hd'⟩

end Sys2Proof.Machine
end

section
/-! SUPPORT. IN and OUT case by case (42_io.md R85 to R89), terms no word decodes to, and O20, O21, O23, O25, O26, O28,
O42. -/

namespace Sys2Proof.Machine

/-! ### The answer a pull receives (10_state.md R24) -/

theorem State.nextAnswer_of_listed {s : State} {answer : InputAnswer} (h : s.input.answers[s.pulled]? = some answer) :
    s.nextAnswer = some answer := by
  simp [State.nextAnswer, InputSource.answerAt, h]

/-- Past the end of a queue a pull is answered `Exhausted` (60_exceptions.md R109). -/
theorem State.nextAnswer_of_queue_end {s : State} (hlen : s.input.answers.length ≤ s.pulled)
    (hqueue : s.input.interactive = false) : s.nextAnswer = some .exhausted := by
  simp [State.nextAnswer, InputSource.answerAt, List.getElem?_eq_none hlen, hqueue]

/-! ### IN -/

theorem execInp_of_operandFault {s : State} {a : Mode} {f : Fault} (h : s.inputOperand a = .error f) :
    execInp a s = .next (s.raise f) :=
  execInp_eq_next_iff.2 (.inl ⟨f, h, rfl⟩)

theorem execInp_of_answer {s : State} {d : Nat} {answer : InputAnswer} (hd : DestinationIs s 1 d)
    (h : s.nextAnswer = some answer) : execInp .position s = .next (receive d answer s) :=
  execInp_eq_next_iff.2 (.inr (.inr ⟨d, answer, State.inputOperand_eq_ok_iff.2 ⟨rfl, hd⟩, h, rfl⟩))

theorem execInp_of_no_answer {s : State} {d : Nat} (hd : DestinationIs s 1 d) (h : s.nextAnswer = none) :
    execInp .position s = .next s.wait :=
  execInp_eq_next_iff.2 (.inr (.inl ⟨d, State.inputOperand_eq_ok_iff.2 ⟨rfl, hd⟩, h, rfl⟩))

/-- Settles O20: the pull is answered with a value, and `receive` stores it. -/
theorem inStoresTheValueRead : Obligations.InStoresTheValueRead :=
  fun _ _ _ hd h => ⟨Memory.get_set_same .., execInp_of_answer hd (State.nextAnswer_of_listed h)⟩

/-- Settles O21: the pull is answered without a value, and `receive` raises the answer's reason. -/
theorem inFaultsOnABadAnswer : Obligations.InFaultsOnABadAnswer := by
  refine fun s d hd => ⟨?_, fun h => execInp_of_answer hd (State.nextAnswer_of_listed h)⟩
  rintro (h | ⟨hlen, hqueue⟩)
  · exact execInp_of_answer hd (State.nextAnswer_of_listed h)
  · exact execInp_of_answer hd (State.nextAnswer_of_queue_end hlen hqueue)

/-- Settles O23: the operand is resolved before the pull. -/
theorem inOperandFaultPullsNothing : Obligations.InOperandFaultPullsNothing :=
  fun _ _ h => execInp_of_operandFault (State.inputOperand_eq_error_iff.2 (.inr ⟨rfl, h⟩))

/-! ### OUT -/

/-- Settles O25: a source that resolves is emitted and `IP` advances. -/
theorem outEmitsTheResolvedValue : Obligations.OutEmitsTheResolvedValue :=
  fun _ _ _ hv => execOut_of_sourceIs hv

/-- Settles O26: the source is resolved before the push. -/
theorem faultingOutEmitsNothing : Obligations.FaultingOutEmitsNothing :=
  fun _ _ f h => execOut_eq_next_iff.2 (.inl ⟨f, State.source_eq_error_iff.2 h, rfl⟩)

/-! ### HLT, and terms with an Immediate destination -/

/-- Settles O28: HLT's meaning is `State.halt`. -/
theorem haltOnlyHalts : Obligations.HaltOnlyHalts :=
  fun _ => rfl

/-- Settles O42: the destination's mode is checked before any operand is read. -/
theorem immediateDestinationTermsFault : Obligations.ImmediateDestinationTermsFault := by
  intro s a b
  have harith : s.arithOperands a b .immediate = .error (.immediateDestination 3) :=
    State.arithOperands_eq_error_iff.2 (.inl ⟨rfl, rfl⟩)
  have hinp : s.inputOperand .immediate = .error (.immediateDestination 1) :=
    State.inputOperand_eq_error_iff.2 (.inl ⟨rfl, rfl⟩)
  exact ⟨exec_of_arithOperands_error (.inl rfl) harith, exec_of_arithOperands_error (.inr rfl) harith,
    execInp_of_operandFault hinp⟩

end Sys2Proof.Machine
end

section
/-! SUPPORT. What each instruction leaves unchanged (40_execute_cycle.md R74 to R76), and O19, O24, O27, O39. -/

namespace Sys2Proof.Machine

/-! ### The cells -/

/-- Memory is left as it was, or its one cell at destination operand `k` is written (40_execute_cycle.md R74). -/
def WritesAtMost (s t : State) (k : Nat) : Prop :=
  t.mem = s.mem ∨ ∃ d v, DestinationIs s k d ∧ t.mem = s.mem.set d v

theorem WritesAtMost.get_of_ne {s t : State} {k d x : Nat} (h : WritesAtMost s t k) (hd : s.destination k = .ok d)
    (hx : x ≠ d) : t.mem.get x = s.mem.get x := by
  rcases h with hmem | ⟨d', v, hd', hmem⟩
  · rw [hmem]
  · cases (State.destination_eq_ok_iff.2 hd').symm.trans hd
    rw [hmem, Memory.get_set_ne _ _ hx]

theorem WritesAtMost.mem_of_not_resolved {s t : State} {k : Nat} (h : WritesAtMost s t k)
    (hno : ∀ d, s.destination k ≠ .ok d) : t.mem = s.mem := by
  rcases h with hmem | ⟨d, v, hd, -⟩
  · exact hmem
  · exact absurd (State.destination_eq_ok_iff.2 hd) (hno d)

theorem WritesAtMost.get_of_error {s t : State} {k : Nat} {f : Fault} (h : WritesAtMost s t k)
    (hf : s.destination k = .error f) (x : Nat) : t.mem.get x = s.mem.get x := by
  rw [h.mem_of_not_resolved (by simp [hf])]

/-- ADD and MUL fault, or store one result at operand 3 and advance by 4. -/
theorem arithmetic_outcome {op : Nat} {g : Int → Int → Int} {a b c : Mode} {s t : State}
    (h : arithmetic op g a b c s = .next t) :
    (∃ f, t = s.raise f) ∨ ∃ d r, DestinationIs s 3 d ∧ t = (s.store d r).advance 4 := by
  rcases arithmetic_eq_next_iff.1 h with ⟨f, -, ht⟩ | ⟨x, f, -, -, ht⟩ | ⟨x, r, hx, -, ht⟩
  · exact .inl ⟨f, ht⟩
  · exact .inl ⟨f, ht⟩
  · obtain ⟨-, -, -, hd⟩ := State.arithOperands_eq_ok_iff.1 hx
    exact .inr ⟨x.addr, r, hd, ht⟩

/-- IN faults before its pull, waits at it, or takes one answer, with which it stores one value or faults. -/
theorem execInp_outcome {a : Mode} {s t : State} (h : execInp a s = .next t) :
    (∃ f, t = s.raise f) ∨ t = s.wait ∨ (∃ f, t = s.pullOne.raise f) ∨
      ∃ d v, DestinationIs s 1 d ∧ t = (s.pullOne.store d v).advance 2 := by
  rcases execInp_eq_next_iff.1 h with ⟨f, -, ht⟩ | ⟨d, -, -, ht⟩ | ⟨d, answer, hoperand, -, ht⟩
  · exact .inl ⟨f, ht⟩
  · exact .inr (.inl ht)
  · cases answer with
    | value v => exact .inr (.inr (.inr ⟨d, v, (State.inputOperand_eq_ok_iff.1 hoperand).2, ht⟩))
    | exhausted => exact .inr (.inr (.inl ⟨_, ht⟩))
    | malformed => exact .inr (.inr (.inl ⟨_, ht⟩))

theorem arithmetic_writesAtMost {op : Nat} {g : Int → Int → Int} {a b c : Mode} {s t : State}
    (h : arithmetic op g a b c s = .next t) : WritesAtMost s t 3 := by
  rcases arithmetic_outcome h with ⟨f, rfl⟩ | ⟨d, r, hd, rfl⟩
  · exact .inl rfl
  · exact .inr ⟨d, r, hd, rfl⟩

theorem execInp_writesAtMost {a : Mode} {s t : State} (h : execInp a s = .next t) : WritesAtMost s t 1 := by
  rcases execInp_outcome h with ⟨f, rfl⟩ | rfl | ⟨f, rfl⟩ | ⟨d, v, hd, rfl⟩
  · exact .inl rfl
  · exact .inl rfl
  · exact .inl rfl
  · exact .inr ⟨d, v, hd, rfl⟩

theorem exec_writesAtMost {i : Instr} {k : Nat} {s t : State} (hk : i.dest = some k) (h : exec i s = .next t) :
    WritesAtMost s t k := by
  cases i with
  | add a b c => cases hk; exact arithmetic_writesAtMost h
  | mul a b c => cases hk; exact arithmetic_writesAtMost h
  | inp a => cases hk; exact execInp_writesAtMost h
  | out a => cases hk
  | hlt => cases hk

/-- An instruction without a destination operand writes no cell. -/
theorem exec_mem_of_no_dest {i : Instr} {s t : State} (hi : i.dest = none) (h : exec i s = .next t) :
    t.mem = s.mem := by
  cases i with
  | add a b c => cases hi
  | mul a b c => cases hi
  | inp a => cases hi
  | out a => exact execOut_mem h
  | hlt => cases h; rfl

/-! ### The frames -/

/-- Settles O19: a fault records itself alone, and a result changes its cell and `IP` alone. -/
theorem arithmeticFrame : Obligations.ArithmeticFrame := by
  intro s t i a b c hi h
  obtain ⟨op, g, hexec⟩ := exec_eq_arithmetic hi
  rw [hexec] at h
  have hwrites := arithmetic_writesAtMost h
  rcases arithmetic_outcome h with ⟨f, rfl⟩ | ⟨d, r, -, rfl⟩
  · exact ⟨rfl, rfl, rfl, rfl, rfl, rfl, rfl, fun _ hd _ => hwrites.get_of_ne hd, fun _ => hwrites.get_of_error,
      .inr ⟨rfl, by simp, rfl, fun _ => rfl⟩⟩
  · exact ⟨rfl, rfl, rfl, rfl, rfl, rfl, rfl, fun _ hd _ => hwrites.get_of_ne hd, fun _ => hwrites.get_of_error,
      .inl ⟨rfl, rfl, rfl⟩⟩

/-- Settles O24: by the ways an IN can end; only a value that is read writes a cell and moves `IP`. -/
theorem inFrame : Obligations.InFrame := by
  intro s t a h
  have hwrites := execInp_writesAtMost h
  rcases execInp_outcome h with ⟨f, rfl⟩ | rfl | ⟨f, rfl⟩ | ⟨d, v, -, rfl⟩
  · exact ⟨rfl, rfl, rfl, rfl, rfl, .inl rfl, .inl rfl, fun _ hd _ => hwrites.get_of_ne hd,
      fun _ => hwrites.get_of_error, .inr ⟨rfl, by simp, rfl, fun _ => rfl⟩⟩
  · exact ⟨rfl, rfl, rfl, rfl, rfl, .inl rfl, .inr rfl, fun _ hd _ => hwrites.get_of_ne hd,
      fun _ => hwrites.get_of_error, .inl ⟨rfl, rfl, .inl rfl⟩⟩
  · exact ⟨rfl, rfl, rfl, rfl, rfl, .inr rfl, .inl rfl, fun _ hd _ => hwrites.get_of_ne hd,
      fun _ => hwrites.get_of_error, .inr ⟨rfl, by simp, rfl, fun _ => rfl⟩⟩
  · exact ⟨rfl, rfl, rfl, rfl, rfl, .inr rfl, .inl rfl, fun _ hd _ => hwrites.get_of_ne hd,
      fun _ => hwrites.get_of_error, .inl ⟨rfl, rfl, .inr rfl⟩⟩

/-- Settles O27: a fault records itself alone, and a value that is emitted changes `OUT` and `IP` alone. -/
theorem outFrame : Obligations.OutFrame := by
  intro s t a h
  rcases execOut_eq_next_iff.1 h with ⟨f, -, rfl⟩ | ⟨v, -, rfl⟩
  · exact ⟨rfl, rfl, fun _ => rfl, rfl, rfl, rfl, rfl, .inr ⟨rfl, by simp, rfl, rfl⟩⟩
  · exact ⟨rfl, rfl, fun _ => rfl, rfl, rfl, rfl, rfl, .inl ⟨rfl, rfl, rfl, v, rfl⟩⟩

/-! ### The cells through a step -/

theorem step_writesAtMost {s t : State} {i : Instr} {k : Nat} (hi : Fetches s i) (hk : i.dest = some k)
    (h : step s = .next t) : WritesAtMost s t k := by
  by_cases hrun : s.run = .running
  · exact exec_writesAtMost (s := s.start) hk ((step_of_fetches hrun hi).symm.trans h)
  · cases (step_of_not_running hrun).symm.trans h
    exact .inl rfl

theorem step_mem_of_no_dest {s t : State} {i : Instr} (hi : Fetches s i) (hnone : i.dest = none)
    (h : step s = .next t) : t.mem = s.mem := by
  by_cases hrun : s.run = .running
  · exact exec_mem_of_no_dest (s := s.start) hnone ((step_of_fetches hrun hi).symm.trans h)
  · cases (step_of_not_running hrun).symm.trans h
    rfl

/-- A step that fetches no instruction faults (40_execute_cycle.md R66, R68) or is one of a terminal state. -/
theorem step_mem_of_not_fetches {s t : State} (hno : ∀ i, ¬ Fetches s i) (h : step s = .next t) : t.mem = s.mem :=
  step_keeps_of_exec_keeps (g := State.mem) rfl (fun _ => rfl) (fun i _ hi _ => absurd hi (hno i)) h

/-- Settles O39: a step writes no cell but through its instruction's destination operand. -/
theorem atMostTheDestinationIsWritten : Obligations.AtMostTheDestinationIsWritten := by
  refine fun s t h => ⟨fun i k d hi hk hd x => (step_writesAtMost hi hk h).get_of_ne hd, fun i hi hno => ?_,
    fun hno => step_mem_of_not_fetches hno h⟩
  cases hk : i.dest with
  | none => exact step_mem_of_no_dest hi hk h
  | some k => exact (step_writesAtMost hi hk h).mem_of_not_resolved fun d => hno k d hk

end Sys2Proof.Machine
end

section
/-! SUPPORT. One step of an instance (40_execute_cycle.md R65 to R69), and O6, O8, O9, O11, O12, O35, O40, O41. -/

namespace Sys2Proof.Machine

/-- Settles O6: `step` runs `exec` of what it fetches. -/
theorem stepRunsDecodedInstruction : Obligations.StepRunsDecodedInstruction :=
  fun _ _ hrun hi => step_of_fetches hrun hi

/-- Settles O8: a terminal state answers itself, once and by induction always. -/
theorem terminalStateIsInert : Obligations.TerminalStateIsInert :=
  fun _ k hrun => ⟨step_of_not_running hrun, runSteps_of_not_running hrun k⟩

/-- Settles O9: the fetch checks `IP` against the bounds and its fault ends the step. -/
theorem fetchPastTheEndFaults : Obligations.FetchPastTheEndFaults := by
  intro s hrun hlen
  have hfetch : s.start.fetch = .error (.outOfBounds s.ip) :=
    State.fetch_eq_error_iff.2 (.inl ⟨fun hb => absurd ((Memory.inBounds_ofNat _ _).1 hb) (by simpa using hlen), rfl⟩)
  exact step_eq_next_iff.2 (.inr (.inl ⟨hrun, _, hfetch, rfl⟩))

/-- Settles O11: the word is decoded before any operand cell is read. -/
theorem decodeFaultEndsTheStep : Obligations.DecodeFaultEndsTheStep :=
  fun _ _ _ hrun hw hd => step_of_decode_error hrun hw hd

/-- Settles O12: no arm of `exec` refuses and every fault is recorded by a next state. -/
theorem everyStepAnswersNext : Obligations.EveryStepAnswersNext :=
  ⟨exec_answers_next, step_answers_next⟩

/-! ### What no instruction changes -/

theorem arithmetic_keeps_config_input_started {op : Nat} {g : Int → Int → Int} {a b c : Mode} {s t : State}
    (h : arithmetic op g a b c s = .next t) : t.config = s.config ∧ t.input = s.input ∧ t.started = s.started := by
  rcases arithmetic_outcome h with ⟨f, rfl⟩ | ⟨d, r, -, rfl⟩ <;> exact ⟨rfl, rfl, rfl⟩

/-- The parameters, the input source and `STARTED` are written by no instruction (00_scope.md R6, R8, 10_state.md R21). -/
theorem exec_keeps_config_input_started {i : Instr} {s t : State} (h : exec i s = .next t) :
    t.config = s.config ∧ t.input = s.input ∧ t.started = s.started := by
  cases i with
  | add a b c => exact arithmetic_keeps_config_input_started h
  | mul a b c => exact arithmetic_keeps_config_input_started h
  | inp a => rcases execInp_outcome h with ⟨f, rfl⟩ | rfl | ⟨f, rfl⟩ | ⟨d, v, -, rfl⟩ <;> exact ⟨rfl, rfl, rfl⟩
  | out a => rcases execOut_eq_next_iff.1 h with ⟨f, -, rfl⟩ | ⟨v, -, rfl⟩ <;> exact ⟨rfl, rfl, rfl⟩
  | hlt => cases h; exact ⟨rfl, rfl, rfl⟩

theorem step_config {s t : State} (h : step s = .next t) : t.config = s.config :=
  step_keeps_of_exec_keeps (g := State.config) rfl (fun _ => rfl)
    (fun _ _ _ hexec => (exec_keeps_config_input_started hexec).1) h

theorem step_input {s t : State} (h : step s = .next t) : t.input = s.input :=
  step_keeps_of_exec_keeps (g := State.input) rfl (fun _ => rfl)
    (fun _ _ _ hexec => (exec_keeps_config_input_started hexec).2.1) h

/-- A step of a running instance leaves `STARTED` set, whatever it meets (10_state.md R21, 40_execute_cycle.md R67). -/
theorem step_started_of_running {s t : State} (hrun : s.run = .running) (h : step s = .next t) : t.started = true := by
  rcases step_eq_next_iff.1 h with ⟨hne, -⟩ | ⟨-, f, -, rfl⟩ | ⟨-, i, -, hexec⟩
  · exact absurd hrun hne
  · rfl
  · exact (exec_keeps_config_input_started hexec).2.2

/-- Settles O41: a running step sets `STARTED` before its fetch, and no instruction writes it or the parameters. -/
theorem startedIsSetForGood : Obligations.StartedIsSetForGood := by
  refine fun s t h => ⟨fun hrun => step_started_of_running hrun h, fun hstarted => ?_, step_config h⟩
  by_cases hrun : s.run = .running
  · exact step_started_of_running hrun h
  · cases (step_of_not_running hrun).symm.trans h
    exact hstarted

/-! ### Faulting steps -/

/-- Settles O35: by the ways an instruction can end; a fault is raised before any effect, but for the answer that a
failed IN has pulled. -/
theorem faultsArePrecise : Obligations.FaultsArePrecise := by
  intro s t hrun h hfaulted
  rcases step_eq_next_iff.1 h with ⟨hne, -⟩ | ⟨-, f, -, rfl⟩ | ⟨-, i, hi, hexec⟩
  · exact absurd hrun hne
  · exact ⟨f, .inl rfl⟩
  · cases exec_ends hexec with
    | faults f hne ht => exact ⟨f, .inl ht⟩
    | inputFaults r hin ht =>
      subst hin
      exact ⟨.inputFault r, .inr ⟨ht, ⟨.position, State.fetch_eq_ok_iff.1 hi⟩, r, rfl⟩⟩
    | waits hin hdest hnone ht => simp [ht, hrun] at hfaulted
    | halts hhlt ht => simp [ht] at hfaulted
    | completes hne hrun' hstep hip hlen => simp [hrun', hrun] at hfaulted

/-! ### A step that writes the next instruction -/

/-- A running instance that has started and is between steps runs its next instruction as it stands. -/
theorem step_of_fetches_of_started {s : State} {i : Instr} (hrun : s.run = .running) (hstarted : s.started = true)
    (hover : s.inStep = false) (hi : Fetches s i) : step s = exec i s := by
  have hstart : s.start = s := by rw [State.start, ← hstarted, ← hover]
  rw [step_of_fetches hrun hi, hstart]

/-- Settles O40: the sum is stored in the cell that `IP` comes to, and a fetch reads memory as it is. -/
theorem nextFetchSeesTheWrite : Obligations.NextFetchSeesTheWrite := by
  intro s a b v1 v2 r i hrun hi h1 h2 hd hr hdec
  have hstep : step s = .next ((s.start.store (s.ip + 4) r).advance 4) :=
    (step_of_fetches hrun hi).trans (arithmetic_stores_cell (s := s.start) (sourceIs_start_iff.2 h1)
      (sourceIs_start_iff.2 h2) hd hr.symm)
  have hget : (s.mem.set (s.ip + 4) r).get (s.ip + 4) = r := Memory.get_set_same ..
  have hcell : CellHolds ((s.start.store (s.ip + 4) r).advance 4) (s.ip + 4 : Nat) r :=
    ⟨(Memory.inBounds_ofNat _ _).2 hd.lt_len, hget⟩
  exact ⟨_, hstep, rfl, hget, step_of_fetches_of_started hrun rfl rfl ⟨r, hcell, hdec⟩⟩

end Sys2Proof.Machine
end

section
/-! SUPPORT. The pull of an IN through a step (10_state.md R22, R24, 42_io.md R86), and O22, O37, O48, O49. -/

namespace Sys2Proof.Machine

/-! ### How many answers a step pulls -/

theorem pullUnanswered_iff {s : State} :
    PullUnanswered s ↔
      s.run = .running ∧ Fetches s (.inp .position) ∧ (∃ d, DestinationIs s 1 d) ∧ s.nextAnswer = none := by
  rw [State.nextAnswer_eq_none_iff, PullUnanswered]

/-- An answered pull consumes one answer, a value or not (40_execute_cycle.md R76). -/
@[simp] theorem receive_pulled (d : Nat) (answer : InputAnswer) (s : State) :
    (receive d answer s).pulled = s.pulled + 1 := by
  cases answer <;> rfl

@[simp] theorem receive_inStep (d : Nat) (answer : InputAnswer) (s : State) :
    (receive d answer s).inStep = s.inStep := by
  cases answer <;> rfl

/-- The step of an IN whose pull is answered takes the answer. -/
theorem step_of_answer {s : State} {d : Nat} {answer : InputAnswer} (hrun : s.run = .running)
    (hi : Fetches s (.inp .position)) (hd : DestinationIs s 1 d) (hanswer : s.nextAnswer = some answer) :
    step s = .next (receive d answer s.start) :=
  (step_of_fetches hrun hi).trans (execInp_of_answer (s := s.start) hd hanswer)

/-- The step of an IN whose pull is not answered stands at its pull. -/
theorem step_of_pullUnanswered {s : State} (h : PullUnanswered s) : step s = .next s.start.wait := by
  obtain ⟨hrun, hi, ⟨d, hd⟩, hnone⟩ := pullUnanswered_iff.1 h
  exact (step_of_fetches hrun hi).trans (execInp_of_no_answer (s := s.start) hd hnone)

/-- Only an IN that gets an answer pulls. -/
theorem exec_pulled_of_no_answer {i : Instr} {s t : State}
    (hno : i = .inp .position → (∃ d, DestinationIs s 1 d) → s.nextAnswer = none) (h : exec i s = .next t) :
    t.pulled = s.pulled := by
  cases i with
  | add a b c => rcases arithmetic_outcome h with ⟨f, rfl⟩ | ⟨d, r, -, rfl⟩ <;> rfl
  | mul a b c => rcases arithmetic_outcome h with ⟨f, rfl⟩ | ⟨d, r, -, rfl⟩ <;> rfl
  | inp a =>
    rcases execInp_eq_next_iff.1 h with ⟨f, -, rfl⟩ | ⟨d, -, -, rfl⟩ | ⟨d, answer, hoperand, hanswer, rfl⟩
    · rfl
    · rfl
    · obtain ⟨rfl, hd⟩ := State.inputOperand_eq_ok_iff.1 hoperand
      simp [hno rfl ⟨d, hd⟩] at hanswer
  | out a => rcases execOut_eq_next_iff.1 h with ⟨f, -, rfl⟩ | ⟨v, -, rfl⟩ <;> rfl
  | hlt => cases h; rfl

/-- Settles O37: an IN past its checks pulls exactly when its answer is there, and every other meaning keeps `pulled`. -/
theorem onlyInputPulls : Obligations.OnlyInputPulls := by
  refine fun s t h => ⟨step_input h, ?_, fun hno => ?_⟩
  · rintro ⟨hrun, hi, ⟨d, hd⟩, hpull⟩
    have hsome : s.nextAnswer ≠ none := fun hnone => hpull (pullUnanswered_iff.2 ⟨hrun, hi, ⟨d, hd⟩, hnone⟩)
    obtain ⟨answer, hanswer⟩ := Option.ne_none_iff_exists'.1 hsome
    cases (step_of_answer hrun hi hd hanswer).symm.trans h
    exact receive_pulled d answer s.start
  · refine step_keeps_of_exec_keeps (g := State.pulled) rfl (fun _ => rfl) (fun i hrun hi hexec => ?_) h
    refine exec_pulled_of_no_answer (fun hin hd => ?_) hexec
    subst hin
    by_contra hsome
    exact hno ⟨hrun, hi, hd, fun hpull => hsome (pullUnanswered_iff.1 hpull).2.2.2⟩

/-! ### Steps that wait -/

/-- A running step stays in progress exactly at an unanswered pull. -/
theorem step_inStep_iff {s t : State} (hrun : s.run = .running) (h : step s = .next t) :
    t.inStep = true ↔ PullUnanswered s := by
  refine ⟨fun hin => ?_, fun hpull => ?_⟩
  · rcases step_eq_next_iff.1 h with ⟨hne, -⟩ | ⟨-, f, -, rfl⟩ | ⟨-, i, hi, hexec⟩
    · exact absurd hrun hne
    · simp at hin
    · cases exec_ends hexec with
      | faults f hne ht => simp [ht] at hin
      | inputFaults r hi ht => simp [ht] at hin
      | waits hinp hdest hnone ht =>
        subst hinp
        exact pullUnanswered_iff.2 ⟨hrun, State.fetch_eq_ok_iff.1 hi, hdest, hnone⟩
      | halts hi ht => simp [ht] at hin
      | completes hne hrun' hstep hip hlen => simp [hstep] at hin
  · cases (step_of_pullUnanswered hpull).symm.trans h
    rfl

/-- A step that waits leaves its own pull unanswered. -/
theorem PullUnanswered.start_wait {s : State} (h : PullUnanswered s) : PullUnanswered s.start.wait := h

/-- However often the host asks, the instance stands at the same pull. -/
theorem runSteps_of_pullUnanswered {s : State} (h : PullUnanswered s) {k : Nat} (hk : 0 < k) :
    runSteps k s = s.start.wait := by
  obtain ⟨n, rfl⟩ := Nat.exists_eq_succ_of_ne_zero hk.ne'
  have hfirst : stepState s = s.start.wait := stepState_eq_of_step (step_of_pullUnanswered h)
  refine runSteps_keeps (P := (· = s.start.wait)) (fun u v hu hstep => ?_) n hfirst
  subst hu
  exact (stepState_eq_of_step hstep).symm.trans (stepState_eq_of_step (step_of_pullUnanswered h.start_wait))

theorem stepResult_of_pullUnanswered {s : State} (h : PullUnanswered s) : stepResult s = none := by
  simp [stepResult, stepState_eq_of_step (step_of_pullUnanswered h)]

/-- A run that reaches an unanswered pull has not returned, and no abort takes effect there (60_exceptions.md R106). -/
theorem runToCompletion_of_pullUnanswered {s : State} (h : PullUnanswered s) {k : Nat} (hk : 0 < k) :
    runToCompletion k s = (.waiting, s.start.wait) := by
  obtain ⟨n, rfl⟩ := Nat.exists_eq_succ_of_ne_zero hk.ne'
  simp [runToCompletion, State.runResult_eq_none_iff.2 h.1, stepState_eq_of_step (step_of_pullUnanswered h)]

/-- Settles O49: of the ways an instruction can end only the wait leaves the step in progress. -/
theorem stepIsOverUnlessAnInWaits : Obligations.StepIsOverUnlessAnInWaits := by
  refine fun s t hrun h => ⟨step_inStep_iff hrun h, fun hin => ?_⟩
  have hpull := (step_inStep_iff hrun h).1 hin
  cases (step_of_pullUnanswered hpull).symm.trans h
  exact ⟨rfl, stepResult_of_pullUnanswered hpull, fun k hk => runToCompletion_of_pullUnanswered hpull hk⟩

/-! ### Answers from the host -/

theorem answerPull_of_not_waitsAtPull {s : State} {answer : InputAnswer}
    (h : ¬ (s.inStep = true ∧ s.input.interactive = true ∧ s.input.answers.length ≤ s.pulled)) :
    answerPull answer s = .error .noPullWaits :=
  if_neg (mt State.waitsAtPull_eq_true_iff.1 h)

theorem answerPull_of_waitsAtPull {s : State} {answer : InputAnswer}
    (h : s.inStep = true ∧ s.input.interactive = true ∧ s.input.answers.length ≤ s.pulled) :
    answerPull answer s = .ok (s.receiveAnswer answer) :=
  if_pos (State.waitsAtPull_eq_true_iff.2 h)

/-- An answer given at the end of the source is the next pull's. -/
theorem nextAnswer_receiveAnswer {s : State} (answer : InputAnswer) (h : s.pulled = s.input.answers.length) :
    (s.receiveAnswer answer).nextAnswer = some answer :=
  State.nextAnswer_of_listed (by simp [InputSource.answered, h])

/-- Once its pull is answered nothing waits: a second answer is rejected (42_io.md R86). -/
theorem answerPull_receiveAnswer {s : State} (answer answer' : InputAnswer)
    (h : s.pulled = s.input.answers.length) :
    answerPull answer' (s.receiveAnswer answer) = .error .noPullWaits :=
  answerPull_of_not_waitsAtPull fun ⟨_, _, hlen⟩ => by simp [InputSource.answered, h] at hlen

/-- Settles O22: an unanswered IN stands at its pull in one state, takes one answer there, and its next step is
`receive`. -/
theorem inWaitsForItsAnswer : Obligations.InWaitsForItsAnswer := by
  intro s d hrun hi hd hinter hpulled
  have hpull : PullUnanswered s := ⟨hrun, hi, ⟨d, hd⟩, hinter, hpulled.ge⟩
  obtain ⟨-, -, -, hnone⟩ := pullUnanswered_iff.1 hpull
  refine ⟨execInp_of_no_answer hd hnone, fun k hk => runSteps_of_pullUnanswered hpull hk,
    fun answer hover => answerPull_of_not_waitsAtPull (by simp [hover]), fun k v hk => ?_⟩
  rw [runSteps_of_pullUnanswered hpull hk]
  exact ⟨s.start.wait.receiveAnswer (.value v), answerPull_of_waitsAtPull ⟨rfl, hinter, hpulled.ge⟩,
    fun answer => answerPull_receiveAnswer (s := s.start.wait) (.value v) answer hpulled,
    step_of_answer (s := s.start.wait.receiveAnswer (.value v)) hrun hi hd
      (nextAnswer_receiveAnswer (s := s.start.wait) (.value v) hpulled)⟩

theorem poke_of_started {s : State} (h : s.started = true) (a : Int) (v : Word) :
    poke a v s = .error .alreadyStarted :=
  if_pos h

/-- Settles O48: the invariant puts an open pull at the end of the source of a started IN, whose cells an answer
leaves. -/
theorem answersOnlyWhileAnInWaits : Obligations.AnswersOnlyWhileAnInWaits := by
  refine fun s answer => ⟨answerPull_of_not_waitsAtPull, answerPull_of_waitsAtPull, fun t hinv h => ?_⟩
  obtain ⟨hwaits, rfl⟩ := answerPull_eq_ok_iff.1 h
  obtain ⟨hin, hinter, hlen⟩ := State.waitsAtPull_eq_true_iff.1 hwaits
  obtain ⟨hrun, hstarted, hi, ⟨d, hd⟩, -⟩ := hinv.progress hin
  have hpulled : s.pulled = s.input.answers.length := le_antisymm (hinv.source hinter) hlen
  exact ⟨⟨hrun, hi, ⟨d, hd⟩, hinter, hlen⟩, hstarted, hi, hin,
    fun a v => ⟨poke_of_started hstarted a v, poke_of_started (s := s.receiveAnswer answer) hstarted a v⟩,
    _, step_of_answer (s := s.receiveAnswer answer) hrun hi hd (nextAnswer_receiveAnswer answer hpulled),
    receive_inStep .., receive_pulled ..⟩

end Sys2Proof.Machine
end

section
/-! SUPPORT. What the host does to an instance (70_reset_and_hazards.md R115 to R120), and O30, O31, O43, O44, O46, O47,
O50, O51. -/

namespace Sys2Proof.Machine

/-! ### The invariant -/

theorem stateInv_construct (p : List Word) (src : InputSource) (cfg : Config) : StateInv (construct p src cfg) where
  memory := Memory.ofProgram_wf p
  pointer := Nat.zero_le _
  record := by simp [construct]
  legal f hf := nomatch hf
  fresh _ := ⟨rfl, rfl, rfl, rfl⟩
  source _ := Nat.zero_le _
  progress hp := nomatch hp

/-- Settles O30: the memory of the empty program has no cells. -/
theorem resetMeetsTheInvariant : Obligations.ResetMeetsTheInvariant :=
  ⟨stateInv_construct [] { answers := [], interactive := false } Config.standard, rfl⟩

/-- Everything a poke can do. -/
theorem poke_eq_ok_iff {a : Int} {v : Word} {s t : State} :
    poke a v s = .ok t ↔ s.started = false ∧ s.mem.InBounds a ∧ t = s.store a.toNat v := by
  unfold poke
  split_ifs with hstarted hb
  · simp [hstarted]
  · exact ⟨fun h => ⟨by simpa using hstarted, hb, (Except.ok.inj h).symm⟩, fun ⟨_, _, ht⟩ => congrArg _ ht.symm⟩
  · exact ⟨nofun, fun ⟨_, hin, _⟩ => absurd hin hb⟩

/-- An instance that has not started has no step in progress, so a poke can replace no IN that waits. -/
theorem StateInv.inStep_of_fresh {s : State} (h : StateInv s) (hfresh : s.started = false) : s.inStep = false := by
  by_contra hin
  obtain ⟨-, hstarted, -⟩ := h.progress (by simpa using hin)
  simp [hfresh] at hstarted

theorem StateInv.poke {s t : State} {a : Int} {v : Word} (h : StateInv s) (hpoke : poke a v s = .ok t) :
    StateInv t := by
  obtain ⟨hfresh, hb, rfl⟩ := poke_eq_ok_iff.1 hpoke
  have hlt : a.toNat < s.mem.len := by
    unfold Memory.InBounds at hb
    omega
  exact { h with
    memory := Memory.set_wf v hlt h.memory
    progress := fun hin => by simp [h.inStep_of_fresh hfresh] at hin }

theorem StateInv.answerPull {s t : State} {answer : InputAnswer} (h : StateInv s)
    (hanswer : answerPull answer s = .ok t) : StateInv t := by
  obtain ⟨-, rfl⟩ := answerPull_eq_ok_iff.1 hanswer
  refine { h with source := fun hinter => (h.source hinter).trans ?_ }
  simp [InputSource.answered]

/-- Settles O31: a poke is one write before any step, and an answer extends the source alone. -/
theorem hostOperationsKeepTheInvariant : Obligations.HostOperationsKeepTheInvariant :=
  ⟨stateInv_construct, fun _ _ _ _ h hpoke => h.poke hpoke, fun _ _ _ h hanswer => h.answerPull hanswer⟩

/-! ### Pokes -/

/-- Settles O44: a poke in bounds before the first step is a checked write; a running step leaves `STARTED` set. -/
theorem pokeOnlyBeforeTheFirstStep : Obligations.PokeOnlyBeforeTheFirstStep := by
  refine fun s a v => ⟨fun hfresh hb => ?_, fun hfresh hb => ?_, fun hstarted => ⟨_, poke_of_started hstarted a v⟩,
    fun t h hrun => ⟨_, poke_of_started (step_started_of_running hrun h) a v⟩⟩
  · exact ⟨s.store a.toNat v, poke_eq_ok_iff.2 ⟨hfresh, hb, rfl⟩, rfl, rfl, Memory.get_set_same ..,
      fun x hx => Memory.get_set_ne _ _ hx⟩
  · simp only [poke, hfresh, hb, if_false, Bool.false_eq_true]

/-! ### Reads -/

/-- Settles O50: a read between steps is checked against the bounds. -/
theorem peekOnlyBetweenSteps : Obligations.PeekOnlyBetweenSteps :=
  fun _ _ => ⟨peek_of_inBounds, fun hover hb => (State.betweenSteps_of_not_inStep hover).trans (if_neg hb),
    State.betweenSteps_of_inStep⟩

theorem reads_of_not_inStep {s : State} (h : s.inStep = false) :
    readIp s = .ok s.ip ∧ readRun s = .ok s.run ∧ readFault s = .ok s.faultRecord ∧ readOut s = .ok s.out :=
  ⟨State.betweenSteps_of_not_inStep h, State.betweenSteps_of_not_inStep h, State.betweenSteps_of_not_inStep h,
    State.betweenSteps_of_not_inStep h⟩

theorem reads_of_inStep {s : State} (h : s.inStep = true) :
    readIp s = .error .stepInProgress ∧ readRun s = .error .stepInProgress ∧
      readFault s = .error .stepInProgress ∧ readOut s = .error .stepInProgress :=
  ⟨State.betweenSteps_of_inStep h, State.betweenSteps_of_inStep h, State.betweenSteps_of_inStep h,
    State.betweenSteps_of_inStep h⟩

/-- Settles O51: every read goes through `State.betweenSteps`, and a running step is in progress exactly at an unanswered
pull. -/
theorem registersReadOnlyBetweenSteps : Obligations.RegistersReadOnlyBetweenSteps := by
  refine ⟨fun s => ⟨reads_of_not_inStep, reads_of_inStep⟩, fun s t hrun h => ⟨fun hpull => ?_, fun hpull => ?_⟩⟩
  · exact reads_of_not_inStep (Bool.eq_false_iff.2 fun hin => hpull ((step_inStep_iff hrun h).1 hin))
  · exact reads_of_inStep ((step_inStep_iff hrun h).2 hpull)

/-- Settles O43: the codes are the table's, fault kind by fault kind. -/
theorem hostVisibleCodes : Obligations.HostVisibleCodes := by
  have hrecord {s : State} {f : Fault} (hf : s.fault = some f) : s.faultRecord = (f.code, f.payload) := by
    rw [State.faultRecord, hf]
  exact ⟨rfl, rfl, rfl, fun _ => ⟨State.faultRecord_of_fault_eq_none, fun _ => hrecord, fun _ => hrecord,
    fun _ => hrecord, hrecord, hrecord, fun _ => hrecord, fun _ => hrecord⟩⟩

/-! ### Runs -/

theorem State.runResult_ne_aborted {s : State} : s.runResult ≠ some .aborted := by
  unfold State.runResult
  cases s.run <;> simp

/-- An abort asked for at once takes effect in a running instance between steps. -/
theorem runToCompletion_zero_of_aborted {s : State} (h : (runToCompletion 0 s).1 = .aborted) :
    s.run = .running ∧ s.inStep = false ∧ (runToCompletion 0 s).2 = s := by
  cases hr : s.runResult with
  | some r =>
    simp only [runToCompletion, hr] at h
    exact absurd (h ▸ hr) State.runResult_ne_aborted
  | none =>
    cases hin : s.inStep with
    | true => simp [runToCompletion, hr, hin] at h
    | false => exact ⟨State.runResult_eq_none_iff.1 hr, rfl, by simp [runToCompletion, hr, hin]⟩

/-- A run that is aborted later has gone on from a first step that was over. -/
theorem runToCompletion_succ_of_aborted {k : Nat} {s : State} (h : (runToCompletion (k + 1) s).1 = .aborted) :
    runToCompletion (k + 1) s = runToCompletion k (stepState s) := by
  cases hr : s.runResult with
  | some r =>
    simp only [runToCompletion, hr] at h
    exact absurd (h ▸ hr) State.runResult_ne_aborted
  | none =>
    cases hin : (stepState s).inStep with
    | true => simp [runToCompletion, hr, hin] at h
    | false => simp [runToCompletion, hr, hin]

/-- Settles O46: by induction on the steps; a run goes on only from a step that is over. -/
theorem abortComesBetweenSteps : Obligations.AbortComesBetweenSteps := by
  intro k
  induction k with
  | zero =>
    intro s h
    obtain ⟨hrun, hover, hsame⟩ := runToCompletion_zero_of_aborted h
    rw [hsame]
    exact ⟨hrun, hover, rfl⟩
  | succ k ih =>
    intro s h
    have hnext := runToCompletion_succ_of_aborted h
    rw [hnext] at h ⊢
    exact ih (stepState s) h

/-! ### Instances -/

theorem getElem?_stepOne_ne {all : List State} {j k : Nat} (h : j ≠ k) : (stepOne k all)[j]? = all[j]? :=
  List.getElem?_modify_ne _ _ h.symm

theorem getElem?_stepOne_same (all : List State) (k : Nat) : (stepOne k all)[k]? = all[k]?.map stepState :=
  List.getElem?_modify_eq ..

/-- Settles O47: `stepOne` modifies one entry of the list, as a function of that entry. -/
theorem instancesAreIsolated : Obligations.InstancesAreIsolated := by
  refine ⟨fun all j k h => getElem?_stepOne_ne h, getElem?_stepOne_same, fun all j k => ?_⟩
  by_cases hjk : j = k
  · rw [hjk]
  refine List.ext_getElem? fun n => ?_
  by_cases hj : n = j
  · subst hj
    rw [getElem?_stepOne_same, getElem?_stepOne_ne hjk, getElem?_stepOne_ne hjk, getElem?_stepOne_same]
  by_cases hk : n = k
  · subst hk
    rw [getElem?_stepOne_same, getElem?_stepOne_ne hj, getElem?_stepOne_ne hj, getElem?_stepOne_same]
  · rw [getElem?_stepOne_ne hj, getElem?_stepOne_ne hk, getElem?_stepOne_ne hk, getElem?_stepOne_ne hj]

end Sys2Proof.Machine
end
